-- ==== Sys2Proof/Word.lean ====
section
/-! DEFINITION. The words of the LS-8 CORE (spec 00_scope.md R5, R7): everything the machine stores is an
unsigned byte, and a register is named by an index 0..7. -/

namespace Sys2Proof

/-- WORD (R5): a register, a memory cell, `pc`, `fl`, an opcode and an operand are each 8 bits, unsigned. -/
abbrev Byte := BitVec 8

/-- NREGS (R5, R11): a legal register index, 0..7. -/
abbrev RegIndex := Fin 8

end Sys2Proof
end

