-- ==== Sys2Proof/Config.lean ====
section
/-! DEFINITION. What the spec leaves to a parameter (00_scope.md R6, 92_eei_decisions.md D5): the thirteen opcode
values OPC_*, the optional WATCHDOG and the optional switch STACK_WRAP. The default opcode values stand in
Sys2Proof/Decode.lean (`standardOpcodes`). -/

namespace Sys2Proof

/-- The thirteen mnemonics of the opcode table, in the table's order (R1, R54). Each names one parameter OPC_*. -/
inductive Opcode where
  | hlt | ldi | prn | mul | add | push | pop | call | ret | cmp | jmp | jeq | jne
deriving DecidableEq, Repr

/-- All thirteen, in the table's order. -/
def Opcode.all : List Opcode :=
  [.hlt, .ldi, .prn, .mul, .add, .push, .pop, .call, .ret, .cmp, .jmp, .jeq, .jne]

/-- The parameters OPC_<mnemonic> (R6): one opcode byte per mnemonic. -/
structure Opcodes where
  hlt : Byte
  ldi : Byte
  prn : Byte
  mul : Byte
  add : Byte
  push : Byte
  pop : Byte
  call : Byte
  ret : Byte
  cmp : Byte
  jmp : Byte
  jeq : Byte
  jne : Byte
deriving DecidableEq, Repr

/-- OPC_<mnemonic> under a choice of the parameters. -/
def Opcodes.value (t : Opcodes) : Opcode → Byte
  | .hlt => t.hlt
  | .ldi => t.ldi
  | .prn => t.prn
  | .mul => t.mul
  | .add => t.add
  | .push => t.push
  | .pop => t.pop
  | .call => t.call
  | .ret => t.ret
  | .cmp => t.cmp
  | .jmp => t.jmp
  | .jeq => t.jeq
  | .jne => t.jne

/-- "The thirteen opcode parameters must be pairwise distinct" (R6). -/
abbrev Opcodes.Distinct (t : Opcodes) : Prop := (Opcode.all.map t.value).Nodup

/-- WATCHDOG (R6, R75, D17): the optional limit on the number of steps of a run. The spec has none
(log entry 7); what a limit would do is read by `Machine.RunReturns` alone (log entry 21). -/
def Config.watchdog : Option Nat := none

/-- STACK_WRAP (D5): the optional switch that lets the stack pointer wrap modulo 256 at the ends of the address
space. The spec's default is off, and R111 states the machine with it off (log entry 8). -/
def Config.stackWrap : Bool := false

end Sys2Proof
end

