-- ==== Sys2Proof/Syntax.lean ====
section
/-! DEFINITION. The instructions: one constructor per row of spec/opcode_table.json (30_encoding.md R54, R60), in the
table's order. A register operand is the WHOLE operand byte (R52): a byte above 7 is an instruction that exists and
that raises `InvalidRegister` when it executes (R73, R146), so it must be an `Instr` too (log entry 11). -/

namespace Sys2Proof

/-- The thirteen instructions (R1). `ra`, `rb` are the operand bytes `a`, `b` read as register operands, `imm` is the
operand byte `b` of LDI read as an immediate (R50 to R52). -/
inductive Instr where
  /-- HLT (R80). -/
  | hlt
  /-- LDI Ra, imm (R90). -/
  | ldi (ra imm : Byte)
  /-- PRN Ra (R81). -/
  | prn (ra : Byte)
  /-- MUL Ra, Rb (R101). -/
  | mul (ra rb : Byte)
  /-- ADD Ra, Rb (R100). -/
  | add (ra rb : Byte)
  /-- PUSH Ra (R113). -/
  | push (ra : Byte)
  /-- POP Ra (R114). -/
  | pop (ra : Byte)
  /-- CALL Ra (R123). -/
  | call (ra : Byte)
  /-- RET (R124). -/
  | ret
  /-- CMP Ra, Rb (R102). -/
  | cmp (ra rb : Byte)
  /-- JMP Ra (R125). -/
  | jmp (ra : Byte)
  /-- JEQ Ra (R126). -/
  | jeq (ra : Byte)
  /-- JNE Ra (R127). -/
  | jne (ra : Byte)
deriving DecidableEq, Repr

end Sys2Proof
end

