-- ==== Sys2Proof/WellFormed.lean ====
section
/-! DEFINITION. Which instructions name registers that exist (30_encoding.md R52, R57: "Operand bytes have no reserved
values except that a register operand must be 0..7"). An ill-formed instruction still decodes and executes: it raises
`InvalidRegister` (60_exceptions.md R146). -/

namespace Sys2Proof

/-- A register operand byte that names a register (R52). -/
def regOperandOk (v : Byte) : Bool := decide (v.toNat ≤ 7)

/-- Every register operand the instruction USES is in 0..7 (R73). The immediate of LDI is not checked (R90). -/
def Instr.wf : Instr → Bool
  | .hlt => true
  | .ldi ra _ => regOperandOk ra
  | .prn ra => regOperandOk ra
  | .mul ra rb => regOperandOk ra && regOperandOk rb
  | .add ra rb => regOperandOk ra && regOperandOk rb
  | .push ra => regOperandOk ra
  | .pop ra => regOperandOk ra
  | .call ra => regOperandOk ra
  | .ret => true
  | .cmp ra rb => regOperandOk ra && regOperandOk rb
  | .jmp ra => regOperandOk ra
  | .jeq ra => regOperandOk ra
  | .jne ra => regOperandOk ra

end Sys2Proof
end

