-- ==== Sys2Proof/Decode.lean ====
section
/-! DEFINITION. The instruction_decoder (30_encoding.md): the opcode table, decoding by exact match of the opcode byte,
and the encoder written from the same table. -/

namespace Sys2Proof

/-- The default opcode values (R54, R6). LDI's is the source's; the other twelve are the spec's general-knowledge
defaults (D1; log entry 3). -/
def standardOpcodes : Opcodes where
  hlt := 0x01
  ldi := 0x82
  prn := 0x47
  mul := 0xA2
  add := 0xA0
  push := 0x45
  pop := 0x46
  call := 0x50
  ret := 0x11
  cmp := 0xA7
  jmp := 0x54
  jeq := 0x55
  jne := 0x56

/-- The four formats (R50): no operand, one register, two registers, register and immediate. -/
inductive Format where
  | f0 | f1 | f2r | f2i
deriving DecidableEq, Repr

/-- Operand count of a format (R50). -/
def formatOperands : Format → Nat
  | .f0 => 0
  | .f1 => 1
  | .f2r => 2
  | .f2i => 2

/-- The table's column "format" (R54): a property of the row, not of any bit of the opcode (R55). -/
def opcodeFormat : Opcode → Format
  | .hlt => .f0
  | .ldi => .f2i
  | .prn => .f1
  | .mul => .f2r
  | .add => .f2r
  | .push => .f1
  | .pop => .f1
  | .call => .f1
  | .ret => .f0
  | .cmp => .f2r
  | .jmp => .f1
  | .jeq => .f1
  | .jne => .f1

/-- The table's column "operand count" (R54). -/
def operandCount (o : Opcode) : Nat := formatOperands (opcodeFormat o)

/-- What the decoder answers when no row matches: `Unknown` (R53, R56), with the offending byte. -/
inductive DecodeError where
  /-- The opcode byte is none of the thirteen values (R142). -/
  | unknownOpcode (opcode : Byte)
deriving DecidableEq, Repr

/-- `decode(opcode byte) -> (instruction, operand count) or Unknown` (00_scope.md R8, R53): all eight bits are compared
with each of the thirteen values. -/
def decodeOpcodeWith (t : Opcodes) (ir : Byte) : Option (Opcode × Nat) :=
  (Opcode.all.find? fun o => t.value o == ir).map fun o => (o, operandCount o)

/-- The instruction of a row with its operand bytes read by the row's format (R50, R52). A byte the format does not
use takes no part (R59). -/
def assemble : Opcode → Byte → Byte → Instr
  | .hlt, _, _ => .hlt
  | .ldi, a, b => .ldi a b
  | .prn, a, _ => .prn a
  | .mul, a, b => .mul a b
  | .add, a, b => .add a b
  | .push, a, _ => .push a
  | .pop, a, _ => .pop a
  | .call, a, _ => .call a
  | .ret, _, _ => .ret
  | .cmp, a, b => .cmp a b
  | .jmp, a, _ => .jmp a
  | .jeq, a, _ => .jeq a
  | .jne, a, _ => .jne a

/-- Decoding of the three fetched bytes under any choice of the OPC_* parameters (R72, R55). Total. -/
def decodeWith (t : Opcodes) (ir a b : Byte) : Except DecodeError Instr :=
  match decodeOpcodeWith t ir with
  | some (o, _) => .ok (assemble o a b)
  | none => .error (.unknownOpcode ir)

/-- The decoder of the machine: `decodeWith` at the default values (R54). -/
def decode (ir a b : Byte) : Except DecodeError Instr := decodeWith standardOpcodes ir a b

/-- The row an instruction belongs to (R54). -/
def Instr.opcode : Instr → Opcode
  | .hlt => .hlt
  | .ldi _ _ => .ldi
  | .prn _ => .prn
  | .mul _ _ => .mul
  | .add _ _ => .add
  | .push _ => .push
  | .pop _ => .pop
  | .call _ => .call
  | .ret => .ret
  | .cmp _ _ => .cmp
  | .jmp _ => .jmp
  | .jeq _ => .jeq
  | .jne _ => .jne

/-- The operand bytes, `a` first (R50, R60). -/
def Instr.operands : Instr → List Byte
  | .hlt => []
  | .ldi ra imm => [ra, imm]
  | .prn ra => [ra]
  | .mul ra rb => [ra, rb]
  | .add ra rb => [ra, rb]
  | .push ra => [ra]
  | .pop ra => [ra]
  | .call ra => [ra]
  | .ret => []
  | .cmp ra rb => [ra, rb]
  | .jmp ra => [ra]
  | .jeq ra => [ra]
  | .jne ra => [ra]

/-- The bytes of an instruction, lowest address first (R35, R50): the opcode, then the operands. -/
def encodeWith (t : Opcodes) (i : Instr) : List Byte := t.value i.opcode :: i.operands

/-- The encoder of the machine: `encodeWith` at the default values (R54). -/
def encode (i : Instr) : List Byte := encodeWith standardOpcodes i

/-- Byte `k` of a numeral whose bit 0 is bit 0 of the FIRST byte of the instruction and whose bits at and above `nbits`
count as 0: the order in which spec/opcode_table.json numbers an instruction's bits. -/
def tableByte (nbits w k : Nat) : Byte := BitVec.ofNat 8 ((w % 2 ^ nbits) / 256 ^ k)

/-- The instruction the decoder reads from bits `w` of a row of `nbits` bits, every bit above them 0. -/
def decodeTableWord (nbits w : Nat) : Option Instr :=
  match decode (tableByte nbits w 0) (tableByte nbits w 1) (tableByte nbits w 2) with
  | .ok i => some i
  | .error _ => none

end Sys2Proof
end

