-- ==== Sys2Proof/Machine/Flags.lean ====
section
/-! DEFINITION. The flags register `00000LGE` (10_state.md R17) and the comparison that writes it (42_alu.md R97). -/

namespace Sys2Proof.Machine

/-- L, bit 2: Less. -/
def flagL : Byte := 0x04

/-- G, bit 1: Greater. -/
def flagG : Byte := 0x02

/-- E, bit 0: Equal. -/
def flagE : Byte := 0x01

/-- The whole byte CMP writes (R97, R102): an unsigned comparison of the two register values, exactly one flag set. -/
def compareFlags (x y : Byte) : Byte :=
  if x.toNat < y.toNat then flagL else if y.toNat < x.toNat then flagG else flagE

/-- The E bit, the only one an instruction reads (R18). -/
def equalBit (fl : Byte) : Bool := fl.getLsbD 0

end Sys2Proof.Machine
end

