-- ==== Sys2Proof/Machine/State.lean ====
section
/-! DEFINITION. The complete state of the core (10_state.md R10: "the following and nothing else"), its reset values
(R26), and the reasons a step or a `load` can stop. -/

namespace Sys2Proof.Machine

/-- `mem[0..255]` (R20, R30) in canonical form: addresses strictly rising, no entry equal to `Memory.unlisted`. -/
abbrev Memory := List Host.Cell

/-- What an address that is not listed reads as: 0x00, the reset value of every cell (R26). -/
def Memory.unlisted : Byte := 0

/-- The canonical form: addresses rising, all below 256 (R30), no entry that equals the unlisted value. -/
def Memory.wf (m : Memory) : Bool :=
  decide (m.Pairwise fun c d => c.1 < d.1) && m.all fun c => decide (c.1 < 256) && c.2 != Memory.unlisted

/-- The two states of the loop (R21). -/
inductive RunStatus where
  | running
  | halted
deriving DecidableEq, Repr

/-- The values of the `fault` field other than `None` (R10, R22, 60_exceptions.md R140 to R146). They are part of the
machine's state: raising one is a NEXT state (R148), not a stop of the model. -/
inductive FaultKind where
  /-- R141: an address, a new `pc` or a new `sp` outside 0..255; `addr` is the offending integer. -/
  | outOfBounds (addr : Int)
  /-- R142: the fetched opcode byte is none of the thirteen. -/
  | unknownOpcode (opcode : Byte)
  /-- R143: the ALU was asked for an operation other than ADD, SUB, MUL, CMP. -/
  | unsupportedOperation
  /-- R146: a register operand byte above 7. -/
  | invalidRegister (index : Byte)
deriving DecidableEq, Repr

/-- The state (R10). -/
structure State where
  /-- R20, R30: the 256 cells. -/
  mem : Memory
  /-- R11: `x[0..7]`; `x[7]` is the stack pointer (R13). -/
  regs : Vector Byte 8
  /-- R14: between steps, the address of the next opcode byte. -/
  pc : Byte
  /-- R17: `00000LGE`. -/
  fl : Byte
  /-- R21. -/
  status : RunStatus
  /-- R22: `none` is the spec's `None`. -/
  fault : Option FaultKind
  /-- R23: the bytes PRN emitted, oldest first. -/
  out : List Byte
deriving DecidableEq, Repr

/-- The machine right after reset (R26, R171). Every value is the spec's. -/
def State.reset : State where
  mem := []
  regs := #v[0x00, 0x00, 0x00, 0x00, 0x00, 0x00, 0x00, 0xF4]
  pc := 0x00
  fl := 0x00
  status := .running
  fault := none
  out := []

/-- Why the model stops outside the machine's own state. No instruction of the thirteen answers with one. -/
inductive Fault where
  /-- Raised by `step` alone, when `status = Halted`: "When `status = Halted` there is no step" (R70). Safe. -/
  | halted
  /-- Raised by `load` alone, for an empty sequence or one of more than 256 entries (R144, R172). Safe. -/
  | loadError
deriving DecidableEq, Repr

/-- What the model gives no meaning to. No instruction of the thirteen answers with one. -/
inductive Refusal where
  /-- For an arm of `exec` without a meaning; no arm is one, so nothing raises it. Safe. -/
  | notModelled (mnemonic : String)
  /-- Raised by `load` alone, on a machine that is not in its reset state (R174, D13: anything else is refused). Safe. -/
  | loadNotAtReset
  /-- Raised by `load` alone, for an entry above 255 (R46, D20). Safe. -/
  | loadEntryNotByte (entry : Nat)
deriving DecidableEq, Repr

end Sys2Proof.Machine
end

