-- ==== Sys2Proof/Machine/Ops.lean ====
section
/-! DEFINITION. The named operations over memory, registers and `pc` that every instruction is written with, and fault
entry, the one shared operation of 60_exceptions.md R148. An operation that can raise answers `Except FaultKind`. -/

namespace Sys2Proof.Machine

/-! ### Narrowing -/

/-- The one place an unbounded integer becomes a byte (20_memory.md R38): an address handed to memory, a new `pc` and a
new `sp` are in 0..255 or raise `OutOfBounds` with the integer; nothing is reduced modulo 256. -/
def narrow : Int → Except FaultKind Byte
  | .ofNat n => if n ≤ 255 then .ok (BitVec.ofNat 8 n) else .error (.outOfBounds (.ofNat n))
  | .negSucc n => .error (.outOfBounds (.negSucc n))

/-! ### Memory (memory_read_write_unit) -/

/-- The byte at an address. -/
def Memory.read : Memory → Nat → Byte
  | [], _ => Memory.unlisted
  | c :: m, a => if c.1 = a then c.2 else Memory.read m a

/-- Take an address off the list, so that it reads as unlisted. -/
def Memory.erase (m : Memory) (a : Nat) : Memory := m.filter fun c => c.1 != a

/-- Put an entry before the first entry with a greater address. -/
def Memory.insert : Memory → Nat → Byte → Memory
  | [], a, v => [(a, v)]
  | c :: m, a, v => if a < c.1 then (a, v) :: c :: m else c :: Memory.insert m a v

/-- Store a byte, keeping the canonical form: the unlisted value is stored by taking the entry away. -/
def Memory.write (m : Memory) (a : Nat) (v : Byte) : Memory :=
  if v = Memory.unlisted then m.erase a else Memory.insert (m.erase a) a v

/-- The machine with another memory. -/
def State.setMem (s : State) (m : Memory) : State := { s with mem := m }

/-- `MemRead(addr, 1)` (R32). -/
def State.memRead (s : State) (addr : Int) : Except FaultKind Byte := do
  let a ← narrow addr
  .ok (s.mem.read a.toNat)

/-- `MemWrite(addr, 1, v)` (R33): only the named cell changes. -/
def State.memWrite (s : State) (addr : Int) (v : Byte) : Except FaultKind State := do
  let a ← narrow addr
  .ok (s.setMem (s.mem.write a.toNat v))

/-! ### Registers (register_file, program_counter, flags_register) -/

/-- SP_INDEX (00_scope.md R5): the stack pointer is register 7. -/
def spIndex : RegIndex := 7

/-- `x[i]` (R11). -/
def State.readReg (s : State) (i : RegIndex) : Byte := s.regs.get i

/-- `x[i] <- v` (R11). No register is hard-wired. -/
def State.writeReg (s : State) (i : RegIndex) (v : Byte) : State := { s with regs := s.regs.set i.val v i.isLt }

/-- `sp`: the same eight bits as `x[7]` (R13). -/
def State.sp (s : State) : Byte := s.readReg spIndex

/-- `pc <- v` (R14). -/
def State.setPc (s : State) (v : Byte) : State := { s with pc := v }

/-- `fl <- v`, the whole byte (R18). -/
def State.setFl (s : State) (v : Byte) : State := { s with fl := v }

/-- `pc + n` as a new `pc` (R16, R74): it does not wrap. -/
def State.advance (s : State) (n : Nat) : Except FaultKind Byte := narrow ((s.pc.toNat : Int) + (n : Int))

/-! ### The stack pointer (stack_pointer_register) -/

/-- The value `sp - 1` (43_stack.md R111). With the optional switch STACK_WRAP on it wraps modulo 256 (D5). -/
def spDecWith (wrap : Bool) (v : Byte) : Except FaultKind Byte :=
  if wrap then .ok (v - 1) else narrow ((v.toNat : Int) - 1)

/-- The value `sp + 1` (R111). With the optional switch STACK_WRAP on it wraps modulo 256 (D5). -/
def spIncWith (wrap : Bool) (v : Byte) : Except FaultKind Byte :=
  if wrap then .ok (v + 1) else narrow ((v.toNat : Int) + 1)

/-- `sp_dec()` (R111). -/
def State.spDec (s : State) : Except FaultKind State := do
  let v ← spDecWith Config.stackWrap s.sp
  .ok (s.writeReg spIndex v)

/-- `sp_inc()` (R111). -/
def State.spInc (s : State) : Except FaultKind State := do
  let v ← spIncWith Config.stackWrap s.sp
  .ok (s.writeReg spIndex v)

/-! ### Output and the end of a run (instruction_dispatcher) -/

/-- `emit(v)`: append to the output stream (R7, R23). -/
def State.emit (s : State) (v : Byte) : State := { s with out := s.out ++ [v] }

/-- `status <- Halted` without a fault (R80, R152). -/
def State.halt (s : State) : State := { s with status := .halted }

/-- FAULT ENTRY, `raise K(info)` (R148): `status <- Halted`, `fault <- K(info)`, nothing else. No state is saved, no
vector is consulted, and there is no return (R151). -/
def State.raise (s : State) (k : FaultKind) : State := { s with status := .halted, fault := some k }

/-- How a step that began in `s` ends: with all of the instruction's writes, or with a fault and none of them (R70,
R148). -/
def State.commit (s : State) : Except FaultKind State → Host.Outcome State Fault Refusal
  | .ok t => .next t
  | .error k => .next (s.raise k)

/-! ### Fetch -/

/-- The three reads of every step, in the order `pc`, `pc + 1`, `pc + 2`, whatever the instruction's length (40 R71). -/
def State.fetch (s : State) : Except FaultKind (Byte × Byte × Byte) := do
  let ir ← s.memRead (s.pc.toNat : Int)
  let a ← s.memRead ((s.pc.toNat : Int) + 1)
  let b ← s.memRead ((s.pc.toNat : Int) + 2)
  .ok (ir, a, b)

end Sys2Proof.Machine
end

