-- ==== Sys2Proof/Machine/Operands.lean ====
section
/-! DEFINITION. The operand forms (30_encoding.md R52). There are two: a register operand, which is checked, and an
immediate (LDI only), which is the operand byte as it is and needs no operation. There is no memory operand (R116). -/

namespace Sys2Proof.Machine

/-- A register operand byte (R52, R73): the register it names, or `InvalidRegister` with the byte. It is not masked. -/
def regIndex (v : Byte) : Except FaultKind RegIndex :=
  if h : v.toNat < 8 then .ok ⟨v.toNat, h⟩ else .error (.invalidRegister v)

end Sys2Proof.Machine
end

