-- ==== Sys2Proof/Machine/Alu.lean ====
section
/-! DEFINITION. The alu_unit and the three instructions that use it (42_alu.md). -/

namespace Sys2Proof.Machine

/-- What a caller may ask of the ALU (R95, R98, D19): the four operations, or anything else. -/
inductive AluOp where
  | add
  | sub
  | mul
  | cmp
  /-- "An unrecognized op" (R98). No instruction issues it (R143). -/
  | other
deriving DecidableEq, Repr

/-- `apply(op, reg_a, reg_b)` (R95 to R98): reads `x[reg_a]` and `x[reg_b]`, writes `x[reg_a]` modulo 256 or `fl`. -/
def aluApply (op : AluOp) (a b : RegIndex) (s : State) : Except FaultKind State :=
  match op with
  | .add => .ok (s.writeReg a (s.readReg a + s.readReg b))
  | .sub => .ok (s.writeReg a (s.readReg a - s.readReg b))
  | .mul => .ok (s.writeReg a (s.readReg a * s.readReg b))
  | .cmp => .ok (s.setFl (compareFlags (s.readReg a) (s.readReg b)))
  | .other => .error .unsupportedOperation

/-- The common shape of ADD, MUL and CMP (R100 to R102), its checks in the order of 60_exceptions.md R150. -/
def aluInstr (op : AluOp) (ra rb : Byte) (s : State) : Except FaultKind State := do
  let a ← regIndex ra
  let b ← regIndex rb
  let t ← aluApply op a b s
  let pc ← s.advance 3
  .ok (t.setPc pc)

/-- MUL Ra, Rb (R101). -/
def execMul (ra rb : Byte) (s : State) : Host.Outcome State Fault Refusal := s.commit (aluInstr .mul ra rb s)

/-- ADD Ra, Rb (R100). -/
def execAdd (ra rb : Byte) (s : State) : Host.Outcome State Fault Refusal := s.commit (aluInstr .add ra rb s)

/-- CMP Ra, Rb (R102). -/
def execCmp (ra rb : Byte) (s : State) : Host.Outcome State Fault Refusal := s.commit (aluInstr .cmp ra rb s)

end Sys2Proof.Machine
end

