-- ==== Sys2Proof/Machine/Control.lean ====
section
/-! DEFINITION. Control transfer (44_control.md): targets are absolute and come from a register (R120); the return
address is one byte on the memory stack (R121). -/

namespace Sys2Proof.Machine

/-- CALL Ra (R123): the return address is `pc + 2`, and `x[a]` is read after the decrement (D11). -/
def execCall (ra : Byte) (s : State) : Host.Outcome State Fault Refusal :=
  s.commit do
    let a ← regIndex ra
    let s1 ← s.spDec
    let ret ← s.advance 2
    let s2 ← s1.memWrite (s1.sp.toNat : Int) ret
    .ok (s2.setPc (s2.readReg a))

/-- RET (R124). -/
def execRet (s : State) : Host.Outcome State Fault Refusal :=
  s.commit do
    let v ← s.memRead (s.sp.toNat : Int)
    let s1 ← s.spInc
    .ok (s1.setPc v)

/-- JMP Ra (R125). -/
def execJmp (ra : Byte) (s : State) : Host.Outcome State Fault Refusal :=
  s.commit do
    let a ← regIndex ra
    .ok (s.setPc (s.readReg a))

/-- The common shape of JEQ and JNE (R126, R127): the operand is checked whether or not the jump is taken (R73). -/
def branchIf (taken : Bool) (ra : Byte) (s : State) : Except FaultKind State := do
  let a ← regIndex ra
  if taken then .ok (s.setPc (s.readReg a))
  else do
    let pc ← s.advance 2
    .ok (s.setPc pc)

/-- JEQ Ra (R126): taken when E is 1. -/
def execJeq (ra : Byte) (s : State) : Host.Outcome State Fault Refusal := s.commit (branchIf (equalBit s.fl) ra s)

/-- JNE Ra (R127): taken when E is 0. -/
def execJne (ra : Byte) (s : State) : Host.Outcome State Fault Refusal := s.commit (branchIf (!equalBit s.fl) ra s)

end Sys2Proof.Machine
end

