-- ==== Sys2Proof/Machine/LoadImmediate.lean ====
section
/-! DEFINITION. LDI (41_load_immediate.md R90). -/

namespace Sys2Proof.Machine

/-- LDI Ra, imm (R90). -/
def execLdi (ra imm : Byte) (s : State) : Host.Outcome State Fault Refusal :=
  s.commit do
    let a ← regIndex ra
    let pc ← s.advance 3
    .ok ((s.writeReg a imm).setPc pc)

end Sys2Proof.Machine
end

