-- ==== Sys2Proof/Machine/Stack.lean ====
section
/-! DEFINITION. PUSH and POP (43_stack.md): decrement then write, read then increment (R110, C2). -/

namespace Sys2Proof.Machine

/-- PUSH Ra (R113): `x[a]` is read after the decrement, so PUSH R7 stores the decremented stack pointer (D11). -/
def execPush (ra : Byte) (s : State) : Host.Outcome State Fault Refusal :=
  s.commit do
    let a ← regIndex ra
    let s1 ← s.spDec
    let pc ← s.advance 2
    let s2 ← s1.memWrite (s1.sp.toNat : Int) (s1.readReg a)
    .ok (s2.setPc pc)

/-- POP Ra (R114): the loaded value is written before the increment, so POP R7 ends with the loaded value plus 1
(D11). -/
def execPop (ra : Byte) (s : State) : Host.Outcome State Fault Refusal :=
  s.commit do
    let a ← regIndex ra
    let v ← s.memRead (s.sp.toNat : Int)
    let s1 ← (s.writeReg a v).spInc
    let pc ← s.advance 2
    .ok (s1.setPc pc)

end Sys2Proof.Machine
end

