-- ==== Sys2Proof/Machine/System.lean ====
section
/-! DEFINITION. The system instructions HLT and PRN (40_cycle_and_system.md R80, R81) and the text of PRN's output
(R82). -/

namespace Sys2Proof.Machine

/-- HLT (R80): `pc <- pc + 1`, `status <- Halted`; `fault` stays as it is. -/
def execHlt (s : State) : Host.Outcome State Fault Refusal :=
  s.commit do
    let pc ← s.advance 1
    .ok (s.setPc pc).halt

/-- PRN Ra (R81). -/
def execPrn (ra : Byte) (s : State) : Host.Outcome State Fault Refusal :=
  s.commit do
    let a ← regIndex ra
    let pc ← s.advance 2
    .ok ((s.emit (s.readReg a)).setPc pc)

/-- A decimal digit as a character. -/
def digitChar (d : Nat) : Char := Char.ofNat (48 + d)

/-- The text of one emitted byte (R82, D24): the unsigned decimal numeral without leading zeros, then one line feed. -/
def renderByte (v : Byte) : List Char :=
  let n := v.toNat
  (if 100 ≤ n then [digitChar (n / 100)] else []) ++ (if 10 ≤ n then [digitChar (n / 10 % 10)] else []) ++
    [digitChar (n % 10), '\n']

/-- The text the surroundings show for an output stream, in execution order (R82). -/
def renderOut (out : List Byte) : List Char := out.flatMap renderByte

end Sys2Proof.Machine
end

