-- ==== Sys2Proof/Machine/Step.lean ====
section
/-! DEFINITION. One step of the machine (40_cycle_and_system.md R70): fetch, decode, execute. -/

namespace Sys2Proof.Machine

/-- The `fault` value of a failed decode (R72). -/
def decodeFault : DecodeError → FaultKind
  | .unknownOpcode ir => .unknownOpcode ir

/-- `Step()` under any choice of the OPC_* parameters (R6, R70), "defined only when status = Running". -/
def stepWith (t : Opcodes) (s : State) : Host.Outcome State Fault Refusal :=
  match s.status with
  | .halted => .fault .halted
  | .running =>
    match s.fetch with
    | .error k => .next (s.raise k)
    | .ok (ir, a, b) =>
      match decodeWith t ir a b with
      | .error e => .next (s.raise (decodeFault e))
      | .ok i => exec i s

/-- The step of the machine: `stepWith` at the default opcode values (R54). -/
def step (s : State) : Host.Outcome State Fault Refusal := stepWith standardOpcodes s

/-- Store byte `k` of a table word at `pc + k`, where that address exists. -/
def State.putFetchByte (s : State) (nbits w k : Nat) : State :=
  if s.pc.toNat + k < 256 then s.setMem (s.mem.write (s.pc.toNat + k) (tableByte nbits w k)) else s

/-- `s` with the instruction whose bits are `w` (numbered as spec/opcode_table.json numbers them; the bits from `nbits`
up to the longest instruction's 24 are 0) stored where `step` fetches: at `pc`, `pc + 1`, `pc + 2`. Nothing else
changes. It stands for the surroundings' `load` (log entry 5). -/
def State.withFetchWord (s : State) (nbits w : Nat) : State :=
  ((s.putFetchByte nbits w 0).putFetchByte nbits w 1).putFetchByte nbits w 2

end Sys2Proof.Machine
end

