-- ==== Sys2Proof/Machine/Surroundings.lean ====
section
/-! DEFINITION. The two operations the core offers to its surroundings (00_scope.md R8, 70_reset_and_hazards.md R172,
40_cycle_and_system.md R75): `load` and `run`. -/

namespace Sys2Proof.Machine

/-- The writes of `load` (R172): entry `i` goes to address `base + i` through the ordinary write primitive. -/
def State.loadFrom (s : State) (base : Nat) : List Nat → Except FaultKind State
  | [] => .ok s
  | v :: image => do
    let t ← s.memWrite (base : Int) (BitVec.ofNat 8 v)
    t.loadFrom (base + 1) image

/-- The first entry of a sequence that is no byte (R46). -/
def firstNonByte (image : List Nat) : Option Nat := image.find? fun v => decide (255 < v)

/-- `load(sequence_of_bytes)` (R172, R173): performed once, after reset and before `run` (R174, D13). A sequence with an
entry above 255 is refused (R46, D20), an empty or over-long one is a `LoadError` with nothing written. The order of
the two refusals and the error is the model's (log entry 6). -/
def load (image : List Nat) (s : State) : Host.Outcome State Fault Refusal :=
  if s ≠ State.reset then .refused .loadNotAtReset
  else
    match firstNonByte image with
    | some v => .refused (.loadEntryNotByte v)
    | none =>
      if image.length = 0 ∨ 256 < image.length then .fault .loadError
      else s.commit (s.loadFrom 0 image)

/-- `run()` (R75) cut off after at most `n` steps: it repeats `step` while the machine is Running, and does nothing to a
halted machine. The bound `n` is the model's (log entry 20) and is not WATCHDOG, which `runFor` does not read. -/
def runFor : Nat → State → Host.Outcome State Fault Refusal
  | 0, s => .next s
  | n + 1, s =>
    match s.status with
    | .halted => .next s
    | .running =>
      match step s with
      | .next t => runFor n t
      | .fault r => .fault r
      | .refused r => .refused r

/-- Whether a run of `n` steps is within the limit WATCHDOG (R6). The spec has none (D17, log entry 7), so every run is.
DESIGN CHOICE: no rule says whether a run of exactly the limit still counts; here it does (log entry 21). -/
def watchdogAllows (limit : Option Nat) (n : Nat) : Bool :=
  match limit with
  | none => true
  | some k => decide (n ≤ k)

/-- `run()` from `s` returns with final state `t` (R75, R176). A run that never halts returns nothing.
DESIGN CHOICE (log entry 21): no rule says what a run does when it reaches a WATCHDOG limit. Here a run that would need
more steps than the limit has no result; it is not turned into a halt. With the spec's default, none, no run meets one. -/
def RunReturns (s t : State) : Prop :=
  ∃ n, watchdogAllows Config.watchdog n = true ∧ runFor n s = .next t ∧ t.status = .halted

end Sys2Proof.Machine
end

