-- ==== Sys2Proof/Safety.lean ====
section
/-! DEFINITION. What counts as a well-formed state, a clean end and a failed end of a run, in the spec's terms. -/

namespace Sys2Proof.Machine

/-- The values `fl` can hold (10_state.md R17): 0x00 before any CMP, then exactly one of L, G, E. -/
def flLegal (fl : Byte) : Bool := fl == 0x00 || fl == flagL || fl == flagG || fl == flagE

/-- The state invariant: memory is in canonical form and inside 0..255 (R30), `fl` is one of its four values (R17), and
a recorded fault means the machine is Halted (R148). -/
def State.Inv (s : State) : Prop :=
  s.mem.wf = true ∧ flLegal s.fl = true ∧ (s.fault ≠ none → s.status = .halted)

/-- A clean halt (R22, R152): Halted with no fault. -/
def State.CleanHalt (s : State) : Prop := s.status = .halted ∧ s.fault = none

/-- The three bytes a step fetches, where they exist (R71). -/
def State.fetched (s : State) : Byte × Byte × Byte :=
  (s.mem.read s.pc.toNat, s.mem.read (s.pc.toNat + 1), s.mem.read (s.pc.toNat + 2))

/-- The instruction at `pc` is `i`: all three bytes exist and decode to it (R70 to R72). -/
def State.At (s : State) (i : Instr) : Prop :=
  s.pc.toNat ≤ 253 ∧ decode s.fetched.1 s.fetched.2.1 s.fetched.2.2 = .ok i

/-- The operand byte `ra` names register `a` (R52): they are the same number. -/
def Names (ra : Byte) (a : RegIndex) : Prop := ra.toNat = a.val

/-- The numbers of the registers an instruction may write: the column "writes" of the table in 10_state.md R11. -/
def regsWritten : Instr → List Nat
  | .hlt => []
  | .ldi ra _ => [ra.toNat]
  | .prn _ => []
  | .mul ra _ => [ra.toNat]
  | .add ra _ => [ra.toNat]
  | .push _ => [7]
  | .pop ra => [ra.toNat, 7]
  | .call _ => [7]
  | .ret => [7]
  | .cmp _ _ => []
  | .jmp _ => []
  | .jeq _ => []
  | .jne _ => []

/-- Memory reads the same at every address. -/
def SameMem (s t : State) : Prop := ∀ a : Nat, t.mem.read a = s.mem.read a

/-- Memory reads the same at every address but `c`. -/
def SameMemBut (c : Nat) (s t : State) : Prop := ∀ a : Nat, a ≠ c → t.mem.read a = s.mem.read a

/-- Every register but those listed holds the same value. -/
def SameRegsBut (ds : List RegIndex) (s t : State) : Prop := ∀ r : RegIndex, r ∉ ds → t.readReg r = s.readReg r

/-- The dispatcher's state is the same: still Running or Halted as before, and the same fault record. -/
def SameRun (s t : State) : Prop := t.status = s.status ∧ t.fault = s.fault

/-- `t` is `s` with fault `k` raised (R148): Halted, `k` recorded, and every other piece of state as it was. -/
def Raised (k : FaultKind) (s t : State) : Prop :=
  t.status = .halted ∧ t.fault = some k ∧ t.pc = s.pc ∧ t.fl = s.fl ∧ t.out = s.out ∧ SameRegsBut [] s t ∧ SameMem s t

end Sys2Proof.Machine
end

