-- ==== Sys2Proof/Certificates/Slice0/Obligations.lean ====
section
/-! DEFINITION. The statements about the machine, from the numbered rules of spec/. A statement about `exec` takes the
hypothesis `s.pc.toNat ≤ 253` where the rule's text rests on a fetch that succeeded (40_cycle_and_system.md R71, R74). Where
a clause rests on a decision of the spec (92_eei_decisions.md, "THE SPEC'S OWN CHOICE"), the docstring names it. -/

open Sys2Proof Sys2Proof.Machine

/-! ### Reset and the invariant -/

/-- 70_reset_and_hazards.md R171: the machine right after reset, every address of memory included. -/
def Obligations.ResetLeavesTheStatedValues : Prop :=
  (∀ a : Nat, a ≤ 255 → State.reset.memRead (a : Int) = .ok 0x00) ∧
  (∀ r : RegIndex, r ≠ 7 → State.reset.readReg r = 0x00) ∧
  State.reset.readReg 7 = 0xF4 ∧ State.reset.sp = 0xF4 ∧ State.reset.pc = 0x00 ∧ State.reset.fl = 0x00 ∧
  State.reset.status = .running ∧ State.reset.fault = none ∧ State.reset.out = []

/-- The invariant holds at reset. Its parts: canonical memory inside 0..255 (the model's representation, log entry 2),
`fl` one of 0x00, 0x04, 0x02, 0x01 (10_state.md section 4), a recorded fault only in Halted (60_exceptions.md section 2). -/
def Obligations.ResetMeetsTheInvariant : Prop := State.reset.Inv

/-- Every step keeps the invariant, from every state that has it. -/
def Obligations.StepKeepsTheInvariant : Prop :=
  ∀ s t : State, s.Inv → step s = .next t → t.Inv

/-- A run of any length, from any state with the invariant, ends in a state with it, and never stops short of the number
of steps for any reason but `Halted`: no host-level fault and no refusal comes out of a run. -/
def Obligations.RunAlwaysAnswersAndKeepsTheInvariant : Prop :=
  ∀ (n : Nat) (s : State), ∃ t, runFor n s = .next t ∧ (s.Inv → t.Inv)

/-! ### Encoding and decoding -/

/-- Decode and encode agree for EVERY instruction, with every operand byte at every value, under ANY pairwise distinct
choice of the opcode values (30_encoding.md section 3: a decoder "must give the same result if the OPC_* parameters are
replaced by any other thirteen distinct bytes"), whatever bytes stand after the instruction (section 4). -/
def Obligations.DecodeOfEncodeIsTheInstruction : Prop :=
  ∀ (ops : Opcodes) (i : Instr) (after : List Byte) (ir a b : Byte), ops.Distinct →
    (encodeWith ops i ++ after)[0]? = some ir → (encodeWith ops i ++ after)[1]? = some a →
    (encodeWith ops i ++ after)[2]? = some b → decodeWith ops ir a b = .ok i

/-- A few words written out bit by bit from 30_encoding.md R50, R54 decode to what they stand for. All opcode values but
LDI's are the spec's general-knowledge defaults (D1, log entry 3). The thirteen defaults are pairwise distinct. -/
def Obligations.SpecWordsDecode : Prop :=
  standardOpcodes.Distinct ∧
  decode 0b10000010 0b00000000 0b00001000 = .ok (.ldi 0 8) ∧
  decode 0b10100000 0b00000001 0b00000111 = .ok (.add 1 7) ∧
  decode 0b10100010 0b00000010 0b00000011 = .ok (.mul 2 3) ∧
  decode 0b10100111 0b00000100 0b00000101 = .ok (.cmp 4 5) ∧
  decode 0b01000101 0b00000110 0b11111111 = .ok (.push 6) ∧
  decode 0b01000110 0b00000111 0b00000000 = .ok (.pop 7) ∧
  decode 0b01010000 0b00000001 0b00000000 = .ok (.call 1) ∧
  decode 0b00010001 0b11111111 0b11111111 = .ok .ret ∧
  decode 0b01010101 0b00001001 0b00000000 = .ok (.jeq 9) ∧
  decode 0b00000001 0b00000000 0b00000000 = .ok .hlt ∧
  decode 0b01000111 0b00000000 0b00000000 = .ok (.prn 0)

/-- 30_encoding.md R53: the opcode byte is compared with each of the thirteen values; a match gives that instruction with
the row's operand count and its operand bytes in order, no match gives `Unknown`. For any distinct opcode values. -/
def Obligations.DecodeIsExactMatch : Prop :=
  ∀ (ops : Opcodes) (ir a b : Byte), ops.Distinct →
    (∀ o : Opcode, ops.value o = ir →
      decodeOpcodeWith ops ir = some (o, operandCount o) ∧
      ∃ i, decodeWith ops ir a b = .ok i ∧ i.opcode = o ∧ i.operands = [a, b].take (operandCount o)) ∧
    ((∀ o : Opcode, ops.value o ≠ ir) →
      decodeOpcodeWith ops ir = none ∧ decodeWith ops ir a b = .error (.unknownOpcode ir))

/-- With the default values every byte but the thirteen is illegal, 243 of 256, among them 0x00 (no NOP), 0xA1 (no SUB
instruction, D2), 0x52 and 0x13 (no INT, no IRET, D14). Rests on D1, log entry 3. -/
def Obligations.EveryOtherOpcodeByteIsIllegal : Prop :=
  (∀ ir a b : Byte, ir ∉ ([0x01, 0x82, 0x47, 0xA2, 0xA0, 0x45, 0x46, 0x50, 0x11, 0xA7, 0x54, 0x55, 0x56] : List Byte) →
    decode ir a b = .error (.unknownOpcode ir)) ∧
  ((List.range 256).filter fun n => (decodeOpcodeWith standardOpcodes (BitVec.ofNat 8 n)).isNone).length = 243

/-- Bytes a format does not use take no part in decoding (30_encoding.md section 4; D23). -/
def Obligations.UnusedOperandBytesAreIgnored : Prop :=
  ∀ (ops : Opcodes) (ir a b a' b' : Byte) (i : Instr), decodeWith ops ir a b = .ok i →
    (operandCount i.opcode = 0 → decodeWith ops ir a' b' = .ok i) ∧
    (operandCount i.opcode = 1 → decodeWith ops ir a b' = .ok i)

/-! ### The step -/

/-- A step runs the decoded instruction and adds nothing around it (40_cycle_and_system.md section 1). -/
def Obligations.StepRunsTheDecodedInstruction : Prop :=
  ∀ (s : State) (i : Instr), s.status = .running → s.pc.toNat ≤ 253 →
    decode (s.mem.read s.pc.toNat) (s.mem.read (s.pc.toNat + 1)) (s.mem.read (s.pc.toNat + 2)) = .ok i →
    step s = exec i s

/-- The step executes the instruction whose encoding stands at `pc`, under any pairwise distinct opcode values: the
meanings do not depend on those values (30_encoding.md section 3; 92_eei_decisions.md D1). -/
def Obligations.StepExecutesTheEncodedInstruction : Prop :=
  ∀ (ops : Opcodes) (s : State) (i : Instr), ops.Distinct → s.status = .running → s.pc.toNat ≤ 253 →
    (∀ (k : Nat) (v : Byte), (encodeWith ops i)[k]? = some v → s.mem.read (s.pc.toNat + k) = v) →
    stepWith ops s = exec i s

/-- 40_cycle_and_system.md R72: the fetched opcode byte is matched exactly; a match runs that instruction, no match halts
the machine with `UnknownOpcode(ir)` and `pc` keeps the address of the offending byte. For any distinct opcode values. -/
def Obligations.StepMatchesTheOpcodeOrRaisesUnknownOpcode : Prop :=
  ∀ (ops : Opcodes) (s : State), ops.Distinct → s.status = .running → s.pc.toNat ≤ 253 →
    (∀ o : Opcode, ops.value o = s.mem.read s.pc.toNat → ∃ i : Instr, i.opcode = o ∧
      i.operands = [s.mem.read (s.pc.toNat + 1), s.mem.read (s.pc.toNat + 2)].take (operandCount o) ∧
      stepWith ops s = exec i s) ∧
    ((∀ o : Opcode, ops.value o ≠ s.mem.read s.pc.toNat) → ∃ t, stepWith ops s = .next t ∧ t.status = .halted ∧
      t.fault = some (.unknownOpcode (s.mem.read s.pc.toNat)) ∧ t.pc = s.pc)

/-- A step at `pc` = 254 or 255 ends in `OutOfBounds(256)` whatever stands in memory, and changes nothing else
(40_cycle_and_system.md section 1; D3, D7, D9: the fetch fault comes before decode). -/
def Obligations.FetchAtTheTopFaults : Prop :=
  ∀ (ops : Opcodes) (s : State), s.status = .running → 254 ≤ s.pc.toNat →
    ∃ t, stepWith ops s = .next t ∧ Raised (.outOfBounds 256) s t

/-- Running into zeroed memory: a step at a cell that holds 0x00 raises `UnknownOpcode(0x00)` and changes nothing else
(30_encoding.md section 4, 70_reset_and_hazards.md section 2; D1, D7). -/
def Obligations.ZeroedMemoryIsNoInstruction : Prop :=
  ∀ s : State, s.status = .running → s.pc.toNat ≤ 253 → s.mem.read s.pc.toNat = 0x00 →
    ∃ t, step s = .next t ∧ Raised (.unknownOpcode 0x00) s t

/-- In Halted there is no step, and `run` does nothing (40_cycle_and_system.md section 1). That the model's step answers
the fault `halted` is the model's choice, log entry 1. -/
def Obligations.HaltedHasNoStep : Prop :=
  ∀ (ops : Opcodes) (s : State), s.status = .halted →
    stepWith ops s = .fault .halted ∧ ∀ n : Nat, runFor n s = .next s

/-- In Running every step answers a next state: no instruction, operand or memory content stops the model
(40_cycle_and_system.md section 1). -/
def Obligations.EveryRunningStepAnswers : Prop :=
  (∀ (i : Instr) (s : State), ∃ t, exec i s = .next t) ∧
  ∀ (ops : Opcodes) (s : State), s.status = .running → ∃ t, stepWith ops s = .next t

/-- Faults are precise: a step of a running machine without a fault that records one changes only `status` and `fault`
(60_exceptions.md section 2; the spec's own choice D7, log entry 9). -/
def Obligations.FaultsArePrecise : Prop :=
  ∀ (s t : State) (k : FaultKind), s.fault = none → step s = .next t → t.fault = some k → Raised k s t

/-- A recorded fault is final: the machine takes no further step and `fault` keeps its value (10_state.md section 7,
60_exceptions.md section 2; the field is D8). -/
def Obligations.FaultIsWrittenAtMostOnce : Prop :=
  ∀ (s : State) (k : FaultKind), s.Inv → s.fault = some k →
    (∀ t, step s ≠ .next t) ∧ ∀ (n : Nat) (t : State), runFor n s = .next t → t.fault = some k

/-- 60_exceptions.md R152: HLT ends a run cleanly, Halted with no fault, and nothing else does: a step of a running
machine without a fault reaches a clean halt exactly when the instruction at `pc` is HLT. -/
def Obligations.CleanHaltOnlyByHlt : Prop :=
  ∀ s t : State, s.status = .running → s.fault = none → step s = .next t → (t.CleanHalt ↔ s.At .hlt)

/-- The fault field can be set only to the four kinds the instructions raise, and `UnsupportedOperation` is not among
them: the ALU raises it for an operation outside ADD, SUB, MUL, CMP and no step does (42_alu.md section 1, D19). -/
def Obligations.UnsupportedOperationIsOnlyTheAlus : Prop :=
  (∀ (a b : RegIndex) (s : State) (op : AluOp),
    aluApply op a b s = .error .unsupportedOperation ↔ op = .other) ∧
  ∀ s t : State, s.fault = none → step s = .next t → t.fault ≠ some .unsupportedOperation

/-! ### Rules about all thirteen instructions -/

/-- 10_state.md R18: FL is written only by CMP, which leaves exactly one of L, G, E set; it is read only by JEQ and JNE,
which read only E; after reset E is 0, so JEQ falls through and JNE jumps. -/
def Obligations.FlIsWrittenOnlyByCmpAndReadOnlyByBranches : Prop :=
  (∀ (i : Instr) (s t : State), exec i s = .next t → i.opcode ≠ .cmp → t.fl = s.fl) ∧
  (∀ (ra rb : Byte) (s t : State), s.fault = none → exec (.cmp ra rb) s = .next t → t.fault = none →
    t.fl = 0x04 ∨ t.fl = 0x02 ∨ t.fl = 0x01) ∧
  (∀ (i : Instr) (s t t' : State) (f : Byte),
    (i.opcode = .jeq ∨ i.opcode = .jne → f.getLsbD 0 = s.fl.getLsbD 0) →
    exec i s = .next t → exec i { s with fl := f } = .next t' →
    t'.pc = t.pc ∧ t'.status = t.status ∧ t'.fault = t.fault ∧ t'.out = t.out ∧ SameRegsBut [] t t' ∧ SameMem t t') ∧
  (∀ (ra : Byte) (a : RegIndex), Names ra a →
    (∃ t, exec (.jeq ra) State.reset = .next t ∧ t.pc.toNat = State.reset.pc.toNat + 2) ∧
    ∃ t, exec (.jne ra) State.reset = .next t ∧ t.pc = State.reset.readReg a)

/-- Which registers each instruction may write (the table of 10_state.md section 2): every other register keeps its value
in every next state, a fault included. -/
def Obligations.RegistersChangeOnlyByTheTable : Prop :=
  ∀ (i : Instr) (s t : State), exec i s = .next t →
    ∀ r : RegIndex, r.val ∉ regsWritten i → t.readReg r = s.readReg r

/-- Only PUSH and CALL write memory, and only the one cell at `sp - 1`; at `sp = 0` they write none (10_state.md section 6,
20_memory.md section 4; the fault at `sp = 0` is D5). -/
def Obligations.MemoryChangesOnlyBelowTheStackPointer : Prop :=
  ∀ (i : Instr) (s t : State), exec i s = .next t →
    (i.opcode ≠ .push → i.opcode ≠ .call → SameMem s t) ∧
    (i.opcode = .push ∨ i.opcode = .call →
      (s.sp.toNat = 0 → SameMem s t) ∧ (0 < s.sp.toNat → SameMemBut (s.sp.toNat - 1) s t))

/-- The output stream is append-only, and only an executed PRN appends, one byte, the value of its register (10_state.md
section 7). Stated for whole steps. -/
def Obligations.OutputGrowsOnlyByPrn : Prop :=
  ∀ s t : State, step s = .next t →
    t.out = s.out ∨ ∃ (ra : Byte) (a : RegIndex), s.At (.prn ra) ∧ Names ra a ∧ t.out = s.out ++ [s.readReg a]

/-- The new `pc` of every instruction that completes (the table of 10_state.md section 3): sequential instructions go to
`pc + 1 + operand_count`, control transfers to their target with nothing added. CALL's target is read after the
decrement (D11), that is in the state after the step. -/
def Obligations.NewPcOfEveryInstruction : Prop :=
  ∀ (i : Instr) (s t : State), s.fault = none → s.pc.toNat ≤ 253 → exec i s = .next t → t.fault = none →
    (i.opcode ∈ [Opcode.hlt, .ldi, .prn, .mul, .add, .cmp, .push, .pop] →
      t.pc.toNat = s.pc.toNat + 1 + operandCount i.opcode) ∧
    (∀ ra : Byte, i = .call ra → ∃ a : RegIndex, Names ra a ∧ t.pc = t.readReg a) ∧
    (i = .ret → t.pc = s.mem.read s.sp.toNat) ∧
    (∀ ra : Byte, i = .jmp ra → ∃ a : RegIndex, Names ra a ∧ t.pc = s.readReg a) ∧
    (∀ ra : Byte, i = .jeq ra → ∃ a : RegIndex, Names ra a ∧
      if s.fl.getLsbD 0 = true then t.pc = s.readReg a else t.pc.toNat = s.pc.toNat + 2) ∧
    (∀ ra : Byte, i = .jne ra → ∃ a : RegIndex, Names ra a ∧
      if s.fl.getLsbD 0 = true then t.pc.toNat = s.pc.toNat + 2 else t.pc = s.readReg a)

/-! ### What each instruction does, and what it leaves alone -/

/-- HLT (40_cycle_and_system.md section 2): `pc` advances by 1, the machine is Halted, no fault is recorded, and nothing
else changes. At address 253 too. -/
def Obligations.HltHalts : Prop :=
  ∀ s : State, s.pc.toNat ≤ 253 →
    ∃ t, exec .hlt s = .next t ∧ t.status = .halted ∧ t.fault = s.fault ∧ t.pc.toNat = s.pc.toNat + 1 ∧
      t.fl = s.fl ∧ t.out = s.out ∧ SameRegsBut [] s t ∧ SameMem s t

/-- PRN (40_cycle_and_system.md section 3): the value of the register is appended to the output, and nothing else changes
but `pc`. -/
def Obligations.PrnEmitsTheRegister : Prop :=
  ∀ (ra : Byte) (a : RegIndex) (s : State), Names ra a → s.pc.toNat ≤ 253 →
    ∃ t, exec (.prn ra) s = .next t ∧ t.out = s.out ++ [s.readReg a] ∧ t.pc.toNat = s.pc.toNat + 2 ∧
      t.fl = s.fl ∧ SameRun s t ∧ SameRegsBut [] s t ∧ SameMem s t

/-- LDI (41_load_immediate.md): any register, R7 included, any immediate. -/
def Obligations.LdiLoadsTheImmediate : Prop :=
  ∀ (ra imm : Byte) (a : RegIndex) (s : State), Names ra a → s.pc.toNat ≤ 252 →
    ∃ t, exec (.ldi ra imm) s = .next t ∧ t.readReg a = imm ∧ t.pc.toNat = s.pc.toNat + 3 ∧
      t.fl = s.fl ∧ t.out = s.out ∧ SameRun s t ∧ SameRegsBut [a] s t ∧ SameMem s t

/-- ADD (42_alu.md section 2): the sum modulo 256, in any pair of registers, the same one twice included; `fl` untouched. -/
def Obligations.AddWrapsModulo256 : Prop :=
  ∀ (ra rb : Byte) (a b : RegIndex) (s : State), Names ra a → Names rb b → s.pc.toNat ≤ 252 →
    ∃ t, exec (.add ra rb) s = .next t ∧
      (t.readReg a).toNat = ((s.readReg a).toNat + (s.readReg b).toNat) % 256 ∧ t.pc.toNat = s.pc.toNat + 3 ∧
      t.fl = s.fl ∧ t.out = s.out ∧ SameRun s t ∧ SameRegsBut [a] s t ∧ SameMem s t

/-- MUL (42_alu.md section 3): the product modulo 256; `fl` untouched. -/
def Obligations.MulKeepsTheLowByte : Prop :=
  ∀ (ra rb : Byte) (a b : RegIndex) (s : State), Names ra a → Names rb b → s.pc.toNat ≤ 252 →
    ∃ t, exec (.mul ra rb) s = .next t ∧
      (t.readReg a).toNat = ((s.readReg a).toNat * (s.readReg b).toNat) % 256 ∧ t.pc.toNat = s.pc.toNat + 3 ∧
      t.fl = s.fl ∧ t.out = s.out ∧ SameRun s t ∧ SameRegsBut [a] s t ∧ SameMem s t

/-- CMP (42_alu.md section 4): the whole of `fl` is 0x04, 0x02 or 0x01 as `x[a]` is below, above or equal to `x[b]`, as
unsigned numbers (D10: the bit numbers and the unsigned order are the spec's own choice, log entry 12), and no register
changes. -/
def Obligations.CmpSetsExactlyOneFlag : Prop :=
  ∀ (ra rb : Byte) (a b : RegIndex) (s : State), Names ra a → Names rb b → s.pc.toNat ≤ 252 →
    ∃ t, exec (.cmp ra rb) s = .next t ∧
      t.fl = (if (s.readReg a).toNat < (s.readReg b).toNat then 0x04
              else if (s.readReg b).toNat < (s.readReg a).toNat then 0x02 else 0x01) ∧
      t.pc.toNat = s.pc.toNat + 3 ∧ t.out = s.out ∧ SameRun s t ∧ SameRegsBut [] s t ∧ SameMem s t

/-- PUSH (43_stack.md section 2): `sp` goes down by one and the cell it then names holds the register, read after the
decrement, so that PUSH R7 stores the decremented `sp` (D11, log entry 13). Every other register and every other byte of
memory is as before. -/
def Obligations.PushStoresBelowTheStackPointer : Prop :=
  ∀ (ra : Byte) (a : RegIndex) (s : State), Names ra a → s.pc.toNat ≤ 253 → 0 < s.sp.toNat →
    ∃ t, exec (.push ra) s = .next t ∧ t.sp.toNat = s.sp.toNat - 1 ∧
      t.mem.read (s.sp.toNat - 1) = (if a = 7 then t.sp else s.readReg a) ∧ t.pc.toNat = s.pc.toNat + 2 ∧
      t.fl = s.fl ∧ t.out = s.out ∧ SameRun s t ∧ SameRegsBut [7] s t ∧ SameMemBut (s.sp.toNat - 1) s t

/-- POP into a register other than R7 (43_stack.md section 3): the cell `sp` names, then `sp` goes up by one; memory is
unchanged. -/
def Obligations.PopLoadsAtTheStackPointer : Prop :=
  ∀ (ra : Byte) (a : RegIndex) (s : State), Names ra a → a ≠ 7 → s.pc.toNat ≤ 253 → s.sp.toNat < 255 →
    ∃ t, exec (.pop ra) s = .next t ∧ t.readReg a = s.mem.read s.sp.toNat ∧ t.sp.toNat = s.sp.toNat + 1 ∧
      t.pc.toNat = s.pc.toNat + 2 ∧ t.fl = s.fl ∧ t.out = s.out ∧ SameRun s t ∧ SameRegsBut [a, 7] s t ∧ SameMem s t

/-- POP R7 (43_stack.md section 3): the loaded value is then incremented (D11, log entry 13). -/
def Obligations.PopIntoTheStackPointerIncrementsTheLoadedValue : Prop :=
  ∀ (ra : Byte) (s : State), Names ra 7 → s.pc.toNat ≤ 253 → (s.mem.read s.sp.toNat).toNat < 255 →
    ∃ t, exec (.pop ra) s = .next t ∧ t.sp.toNat = (s.mem.read s.sp.toNat).toNat + 1 ∧
      t.pc.toNat = s.pc.toNat + 2 ∧ t.fl = s.fl ∧ t.out = s.out ∧ SameRun s t ∧ SameRegsBut [7] s t ∧ SameMem s t

/-- CALL (44_control.md section 2): `sp` goes down by one, the cell it then names holds `pc + 2`, and `pc` is the register,
read after the decrement, so that CALL R7 goes to the decremented `sp` (D11, log entry 13). -/
def Obligations.CallPushesTheReturnAddress : Prop :=
  ∀ (ra : Byte) (a : RegIndex) (s : State), Names ra a → s.pc.toNat ≤ 253 → 0 < s.sp.toNat →
    ∃ t, exec (.call ra) s = .next t ∧ t.sp.toNat = s.sp.toNat - 1 ∧
      (t.mem.read (s.sp.toNat - 1)).toNat = s.pc.toNat + 2 ∧ t.pc = (if a = 7 then t.sp else s.readReg a) ∧
      t.fl = s.fl ∧ t.out = s.out ∧ SameRun s t ∧ SameRegsBut [7] s t ∧ SameMemBut (s.sp.toNat - 1) s t

/-- RET (44_control.md section 3): `pc` is the byte on top of the stack, as it is, and `sp` goes up by one. No hypothesis
on `pc`: RET adds nothing to it. -/
def Obligations.RetPopsThePc : Prop :=
  ∀ s : State, s.sp.toNat < 255 →
    ∃ t, exec .ret s = .next t ∧ t.pc = s.mem.read s.sp.toNat ∧ t.sp.toNat = s.sp.toNat + 1 ∧
      t.fl = s.fl ∧ t.out = s.out ∧ SameRun s t ∧ SameRegsBut [7] s t ∧ SameMem s t

/-- JMP (44_control.md section 4): `pc` is the register's value and nothing else changes. -/
def Obligations.JmpGoesToTheRegister : Prop :=
  ∀ (ra : Byte) (a : RegIndex) (s : State), Names ra a →
    ∃ t, exec (.jmp ra) s = .next t ∧ t.pc = s.readReg a ∧
      t.fl = s.fl ∧ t.out = s.out ∧ SameRun s t ∧ SameRegsBut [] s t ∧ SameMem s t

/-- JEQ and JNE (44_control.md sections 5 and 6) are complements: for the same `fl` and register exactly one of them goes
to the register's value, the other to `pc + 2`, by bit 0 of `fl` alone; nothing else changes. -/
def Obligations.BranchesAreComplements : Prop :=
  ∀ (ra : Byte) (a : RegIndex) (s : State), Names ra a → s.pc.toNat ≤ 253 →
    ∃ t u, exec (.jeq ra) s = .next t ∧ exec (.jne ra) s = .next u ∧
      (if s.fl.getLsbD 0 = true then t.pc = s.readReg a ∧ u.pc.toNat = s.pc.toNat + 2
       else t.pc.toNat = s.pc.toNat + 2 ∧ u.pc = s.readReg a) ∧
      t.fl = s.fl ∧ t.out = s.out ∧ SameRun s t ∧ SameRegsBut [] s t ∧ SameMem s t ∧
      u.fl = s.fl ∧ u.out = s.out ∧ SameRun s u ∧ SameRegsBut [] s u ∧ SameMem s u

/-! ### Where an instruction faults instead -/

/-- A register operand byte above 7 raises `InvalidRegister` with that byte, `a` before `b`, before any other fault of the
execute stage and with nothing else changed, JEQ and JNE taken or not; the index is not masked (40_cycle_and_system.md
section 1, 60_exceptions.md section 1; the spec's own choices D6, D7 and D9, log entry 10). -/
def Obligations.InvalidRegisterComesFirst : Prop :=
  (∀ (ra imm : Byte) (s : State) (i : Instr), 7 < ra.toNat →
    i ∈ [Instr.ldi ra imm, .prn ra, .push ra, .pop ra, .call ra, .jmp ra, .jeq ra, .jne ra,
      .mul ra imm, .add ra imm, .cmp ra imm] →
    ∃ t, exec i s = .next t ∧ Raised (.invalidRegister ra) s t) ∧
  ∀ (ra rb : Byte) (s : State) (i : Instr), ra.toNat ≤ 7 → 7 < rb.toNat →
    i ∈ [Instr.mul ra rb, .add ra rb, .cmp ra rb] → ∃ t, exec i s = .next t ∧ Raised (.invalidRegister rb) s t

/-- A three-byte instruction at address 253 with legal operands raises `OutOfBounds(256)` and commits nothing
(40_cycle_and_system.md section 1; the spec's own choices D4 and D7). -/
def Obligations.ThreeByteInstructionAt253Faults : Prop :=
  ∀ (ra rb : Byte) (s : State) (i : Instr), s.pc.toNat = 253 → i.wf = true →
    i ∈ [Instr.ldi ra rb, .mul ra rb, .add ra rb, .cmp ra rb] →
    ∃ t, exec i s = .next t ∧ Raised (.outOfBounds 256) s t

/-- The stack pointer does not wrap (43_stack.md section 1; the spec's own choices D5 and D7, log entry 8): PUSH and CALL
at `sp = 0` raise `OutOfBounds(-1)`; RET, and POP into a register other than R7, at `sp = 255`, and POP R7 of the value
255, raise `OutOfBounds(256)`. Nothing else changes. -/
def Obligations.StackPointerEndsFault : Prop :=
  (∀ (ra : Byte) (s : State) (i : Instr), ra.toNat ≤ 7 → s.sp.toNat = 0 → i ∈ [Instr.push ra, .call ra] →
    ∃ t, exec i s = .next t ∧ Raised (.outOfBounds (-1)) s t) ∧
  (∀ (ra : Byte) (s : State), ra.toNat < 7 → s.sp.toNat = 255 →
    ∃ t, exec (.pop ra) s = .next t ∧ Raised (.outOfBounds 256) s t) ∧
  (∀ (ra : Byte) (s : State), ra.toNat = 7 → (s.mem.read s.sp.toNat).toNat = 255 →
    ∃ t, exec (.pop ra) s = .next t ∧ Raised (.outOfBounds 256) s t) ∧
  ∀ s : State, s.sp.toNat = 255 → ∃ t, exec .ret s = .next t ∧ Raised (.outOfBounds 256) s t

/-! ### The primitives and the ALU -/

/-- 20_memory.md R32: a read in range gives the cell and reading twice gives the same byte; out of range it raises
`OutOfBounds` with the address. A read answers a byte and no state, so it changes nothing. -/
def Obligations.MemReadIsTheCellOrOutOfBounds : Prop :=
  ∀ (s : State) (n : Int),
    (0 ≤ n → n ≤ 255 → s.memRead n = .ok (s.mem.read n.toNat)) ∧
    (n < 0 ∨ 255 < n → s.memRead n = .error (.outOfBounds n))

/-- 20_memory.md R33: a write in range stores the byte in the named cell, every other address reads as before, and no
other state changes; out of range it raises `OutOfBounds` with the address. No premise on the memory's form. -/
def Obligations.MemWriteChangesOnlyTheNamedCell : Prop :=
  ∀ (s : State) (n : Int) (v : Byte),
    (0 ≤ n → n ≤ 255 → ∃ t, s.memWrite n v = .ok t ∧ t.memRead n = .ok v ∧
      (∀ m : Int, m ≠ n → t.memRead m = s.memRead m) ∧ SameMemBut n.toNat s t ∧
      t.pc = s.pc ∧ t.fl = s.fl ∧ t.out = s.out ∧ SameRun s t ∧ SameRegsBut [] s t) ∧
    (n < 0 ∨ 255 < n → s.memWrite n v = .error (.outOfBounds n))

/-- The stack_pointer_register's two operations (43_stack.md section 1; the spec's own choice D5, log entry 8): they move
`x[7]` by one and touch nothing else, and at the ends of 0..255 they raise `OutOfBounds` instead of wrapping; with the
optional switch STACK_WRAP on, the values would wrap modulo 256. -/
def Obligations.StackPointerOperationsDoNotWrap : Prop :=
  (∀ s : State,
    (0 < s.sp.toNat → ∃ t, s.spDec = .ok t ∧ t.sp.toNat = s.sp.toNat - 1 ∧ SameRegsBut [7] s t ∧ SameMem s t ∧
      t.pc = s.pc ∧ t.fl = s.fl ∧ t.out = s.out ∧ SameRun s t) ∧
    (s.sp.toNat = 0 → s.spDec = .error (.outOfBounds (-1))) ∧
    (s.sp.toNat < 255 → ∃ t, s.spInc = .ok t ∧ t.sp.toNat = s.sp.toNat + 1 ∧ SameRegsBut [7] s t ∧ SameMem s t ∧
      t.pc = s.pc ∧ t.fl = s.fl ∧ t.out = s.out ∧ SameRun s t) ∧
    (s.sp.toNat = 255 → s.spInc = .error (.outOfBounds 256))) ∧
  ∀ v : Byte, ∃ d i : Byte, spDecWith true v = .ok d ∧ spIncWith true v = .ok i ∧
    d.toNat = (v.toNat + 255) % 256 ∧ i.toNat = (v.toNat + 1) % 256

/-- 42_alu.md R96: ADD, SUB and MUL modulo 256 on the unsigned values, `mod` with a non-negative result; the same bytes
result when the operands are read as two's-complement numbers; `fl` and all else untouched. -/
def Obligations.AluArithmeticWrapsModulo256 : Prop :=
  ∀ (a b : RegIndex) (s : State), ∃ ta ts tm : State,
    aluApply .add a b s = .ok ta ∧ aluApply .sub a b s = .ok ts ∧ aluApply .mul a b s = .ok tm ∧
    ((ta.readReg a).toNat : Int) = (((s.readReg a).toNat : Int) + (s.readReg b).toNat) % 256 ∧
    ((ts.readReg a).toNat : Int) = (((s.readReg a).toNat : Int) - (s.readReg b).toNat) % 256 ∧
    ((tm.readReg a).toNat : Int) = (((s.readReg a).toNat : Int) * (s.readReg b).toNat) % 256 ∧
    ta.readReg a = BitVec.ofInt 8 ((s.readReg a).toInt + (s.readReg b).toInt) ∧
    ts.readReg a = BitVec.ofInt 8 ((s.readReg a).toInt - (s.readReg b).toInt) ∧
    tm.readReg a = BitVec.ofInt 8 ((s.readReg a).toInt * (s.readReg b).toInt) ∧
    ∀ t ∈ [ta, ts, tm], SameRegsBut [a] s t ∧ SameMem s t ∧ t.fl = s.fl ∧ t.pc = s.pc ∧ t.out = s.out ∧ SameRun s t

/-- 42_alu.md R99: CMP compares `x[a]` with `x[b]`: E is set exactly when they are equal. -/
def Obligations.EqualIsSetOnlyWhenEqual : Prop :=
  ∀ (a b : RegIndex) (s : State), ∃ t, aluApply .cmp a b s = .ok t ∧
    (t.fl.getLsbD 0 = true ↔ s.readReg a = s.readReg b)

/-! ### Laws over two instructions, and runs -/

/-- PUSH then POP into the same register (43_stack.md section 4, whose extension to R7 the spec marks as derived): the
register and `sp` have their old values, `pc` has advanced by 4, and the one lasting change is the cell at `sp - 1`. -/
def Obligations.PushThenPopRestores : Prop :=
  ∀ (ra : Byte) (a : RegIndex) (s : State), Names ra a → s.pc.toNat ≤ 251 → 0 < s.sp.toNat →
    ∃ t u, exec (.push ra) s = .next t ∧ exec (.pop ra) t = .next u ∧ SameRegsBut [] s u ∧
      u.pc.toNat = s.pc.toNat + 4 ∧ SameMemBut (s.sp.toNat - 1) s u ∧
      (a ≠ 7 → u.mem.read (s.sp.toNat - 1) = s.readReg a) ∧ u.fl = s.fl ∧ u.out = s.out ∧ SameRun s u

/-- CALL then RET (44_control.md section 1, whose working out the spec marks as derived): if whatever ran at the target
left `sp` and the cell it names as the CALL left them, RET resumes at the byte after the CALL with the old `sp`. -/
def Obligations.RetReturnsAfterTheCall : Prop :=
  ∀ (ra : Byte) (a : RegIndex) (s : State), Names ra a → s.pc.toNat ≤ 253 → 0 < s.sp.toNat →
    ∃ t, exec (.call ra) s = .next t ∧
      ∀ u : State, u.sp = t.sp → u.mem.read u.sp.toNat = t.mem.read t.sp.toNat →
        ∃ v, exec .ret u = .next v ∧ v.pc.toNat = s.pc.toNat + 2 ∧ v.sp = s.sp

/-- LDI then PRN emits the loaded value (the source's property quoted in 40_cycle_and_system.md section 3), as two whole
steps of a running machine from their bytes in memory, for every register, R7 included. -/
def Obligations.LdiThenPrnEmitsTheValue : Prop :=
  ∀ (r : RegIndex) (v rb : Byte) (s : State), s.status = .running → s.pc.toNat ≤ 250 → Names rb r →
    s.mem.read s.pc.toNat = 0x82 → s.mem.read (s.pc.toNat + 1) = rb → s.mem.read (s.pc.toNat + 2) = v →
    s.mem.read (s.pc.toNat + 3) = 0x47 → s.mem.read (s.pc.toNat + 4) = rb →
    ∃ t, runFor 2 s = .next t ∧ t.out = s.out ++ [v] ∧ t.pc.toNat = s.pc.toNat + 5 ∧ t.readReg r = v

/-- Fetch sees stores (20_memory.md section 8): a PUSH whose cell is the next opcode byte makes the very next step decode
the pushed byte. Stated for whole steps. -/
def Obligations.NextFetchSeesThePush : Prop :=
  ∀ (ra : Byte) (a : RegIndex) (s : State), s.status = .running → s.At (.push ra) → Names ra a → a ≠ 7 →
    s.sp.toNat = s.pc.toNat + 3 →
    ∃ t, step s = .next t ∧ t.pc.toNat = s.pc.toNat + 2 ∧ t.fetched.1 = s.readReg a

/-- A JMP to its own address is an endless loop: the step is the identity and `run` never returns (40_cycle_and_system.md
section 1, 44_control.md section 4; no watchdog, D17, log entry 7). -/
def Obligations.JumpToSelfNeverReturns : Prop :=
  ∀ (ra : Byte) (a : RegIndex) (s : State), s.status = .running → s.At (.jmp ra) → Names ra a → s.readReg a = s.pc →
    step s = .next s ∧ ¬ ∃ t, RunReturns s t

/-- `run` returns at most one final state (40_cycle_and_system.md section 1), and it is the state of every longer run. -/
def Obligations.RunReturnsOneState : Prop :=
  ∀ s t : State, RunReturns s t →
    (∀ u, RunReturns s u → u = t) ∧ ∃ n, ∀ m, n ≤ m → runFor m s = .next t

/-! ### The surroundings -/

/-- `load` (70_reset_and_hazards.md section 2) places byte `i` at address `i` and leaves every other cell 0x00 and every other
piece of state at its reset value; 0 entries and more than 256 fail with LoadError. The last clause, that
an entry above 255 is refused, is the spec's own choice D20 (20_memory.md section 9), and that the refusal names the entry
is the model's, log entry 6 (DESIGN CHOICE). -/
def Obligations.LoadPlacesTheImage : Prop :=
  ∀ image : List Nat,
    ((∀ v ∈ image, v ≤ 255) → 1 ≤ image.length → image.length ≤ 256 →
      ∃ t, load image State.reset = .next t ∧
        (∀ i : Nat, i ≤ 255 → (t.mem.read i).toNat = image.getD i 0) ∧
        t.pc = State.reset.pc ∧ t.fl = State.reset.fl ∧ t.out = State.reset.out ∧ SameRun State.reset t ∧
        SameRegsBut [] State.reset t) ∧
    ((∀ v ∈ image, v ≤ 255) → image.length = 0 ∨ 256 < image.length → load image State.reset = .fault .loadError) ∧
    ((∃ v ∈ image, 255 < v) → 1 ≤ image.length → image.length ≤ 256 →
      ∃ v ∈ image, 255 < v ∧ load image State.reset = .refused (.loadEntryNotByte v))

/-- The image a `load` places is in canonical form, so the launch state has the invariant, and a `load` on any machine
that is not in its reset state is refused (70_reset_and_hazards.md section 2; D13, log entry 6). -/
def Obligations.LoadIsForTheResetState : Prop :=
  (∀ (image : List Nat) (t : State), load image State.reset = .next t → t.Inv) ∧
  ∀ (image : List Nat) (s : State), s ≠ State.reset → load image s = .refused .loadNotAtReset

/-- The text of an emitted byte (40_cycle_and_system.md section 3; D24, log entry 14): the digits of its unsigned decimal
numeral, no leading zero, then one line feed. -/
def Obligations.EmittedByteIsShownInDecimal : Prop :=
  ∀ v : Byte, ∃ ds : List Nat, renderByte v = ds.map digitChar ++ ['\n'] ∧ ds ≠ [] ∧ (∀ d ∈ ds, d < 10) ∧
    ds.foldl (fun n d => 10 * n + d) 0 = v.toNat ∧ (ds.head? = some 0 → ds = [0])
end

