-- ==== Sys2Proof/Laws/Flags.lean ====
section
/-! SUPPORT. The comparison and the E bit (R97, R18). -/

namespace Sys2Proof.Machine

theorem compareFlags_less {x y : Byte} (h : x.toNat < y.toNat) : compareFlags x y = flagL := by
  simp [compareFlags, h]

theorem compareFlags_greater {x y : Byte} (h : y.toNat < x.toNat) : compareFlags x y = flagG := by
  simp [compareFlags, h, Nat.lt_asymm h]

theorem compareFlags_equal (x : Byte) : compareFlags x x = flagE := by
  simp [compareFlags]

/-- "exactly one bit set per comparison". -/
theorem compareFlags_cases (x y : Byte) :
    (x.toNat < y.toNat ∧ compareFlags x y = flagL) ∨ (y.toNat < x.toNat ∧ compareFlags x y = flagG) ∨
      (x = y ∧ compareFlags x y = flagE) := by
  rcases Nat.lt_trichotomy x.toNat y.toNat with h | h | h
  · exact .inl ⟨h, compareFlags_less h⟩
  · have hxy : x = y := BitVec.eq_of_toNat_eq h
    exact .inr (.inr ⟨hxy, hxy ▸ compareFlags_equal x⟩)
  · exact .inr (.inl ⟨h, compareFlags_greater h⟩)

/-- After a comparison, E says whether the two values were equal. -/
theorem equalBit_compareFlags (x y : Byte) : equalBit (compareFlags x y) = decide (x = y) := by
  rcases compareFlags_cases x y with ⟨h, e⟩ | ⟨h, e⟩ | ⟨h, e⟩
  · have : x ≠ y := fun c => by simp [c] at h
    simp only [e, this, decide_false]
    decide
  · have : x ≠ y := fun c => by simp [c] at h
    simp only [e, this, decide_false]
    decide
  · rw [e, decide_eq_true h]
    decide

end Sys2Proof.Machine
end

