-- ==== Sys2Proof/Laws/Memory.lean ====
section
/-! SUPPORT. The laws of memory: a read after a write, that every operation keeps the canonical form, and that canonical
memories that read alike are equal. -/

namespace Sys2Proof.Machine

/-! ### Read after write -/

theorem Memory.read_erase_self (m : Memory) (a : Nat) : (Memory.erase m a).read a = Memory.unlisted := by
  induction m with
  | nil => rfl
  | cons c m ih =>
    by_cases h : c.1 = a
    · simpa [Memory.erase, h] using ih
    · simpa [Memory.erase, Memory.read, h] using ih

theorem Memory.read_erase_ne (m : Memory) {a b : Nat} (h : b ≠ a) : (Memory.erase m a).read b = m.read b := by
  induction m with
  | nil => rfl
  | cons c m ih =>
    by_cases hc : c.1 = a
    · have hb : ¬ a = b := fun e => h e.symm
      simpa [Memory.erase, Memory.read, hc, hb] using ih
    · by_cases hb : c.1 = b
      · simp [Memory.erase, Memory.read, hb, h]
      · simpa [Memory.erase, Memory.read, hc, hb] using ih

theorem Memory.read_insert_ne (m : Memory) {a b : Nat} (v : Byte) (h : b ≠ a) :
    (Memory.insert m a v).read b = m.read b := by
  have hab : ¬ a = b := fun e => h e.symm
  induction m with
  | nil => simp [Memory.insert, Memory.read, hab]
  | cons c m ih =>
    by_cases hlt : a < c.1
    · simp [Memory.insert, Memory.read, hlt, hab]
    · simp [Memory.insert, Memory.read, hlt, ih]

theorem Memory.read_insert_self (m : Memory) {a : Nat} (v : Byte) (h : ∀ c ∈ m, c.1 ≠ a) :
    (Memory.insert m a v).read a = v := by
  induction m with
  | nil => simp [Memory.insert, Memory.read]
  | cons c m ih =>
    by_cases hlt : a < c.1
    · simp [Memory.insert, Memory.read, hlt]
    · have hc : c.1 ≠ a := h c (by simp)
      simpa [Memory.insert, Memory.read, hlt, hc] using ih fun d hd => h d (by simp [hd])

theorem Memory.not_mem_erase (m : Memory) (a : Nat) : ∀ c ∈ Memory.erase m a, c.1 ≠ a := by
  simp [Memory.erase]

/-- R33 and R32: only the named cell changes, and it reads back the stored byte. No premise on the memory. -/
theorem Memory.read_write (m : Memory) (a b : Nat) (v : Byte) :
    (m.write a v).read b = if b = a then v else m.read b := by
  unfold Memory.write
  by_cases hb : b = a
  · subst hb
    by_cases hv : v = Memory.unlisted
    · simp [hv, Memory.read_erase_self]
    · simp [hv, Memory.read_insert_self _ _ (Memory.not_mem_erase m b)]
  · by_cases hv : v = Memory.unlisted
    · simp [hv, hb, Memory.read_erase_ne]
    · simp [hv, hb, Memory.read_insert_ne, Memory.read_erase_ne]

@[simp] theorem Memory.read_write_self (m : Memory) (a : Nat) (v : Byte) : (m.write a v).read a = v := by
  simp [Memory.read_write]

theorem Memory.read_write_ne (m : Memory) {a b : Nat} (v : Byte) (h : b ≠ a) :
    (m.write a v).read b = m.read b := by
  simp [Memory.read_write, h]

/-! ### The canonical form is kept -/

/-- The canonical form, said as a proposition. -/
theorem Memory.wf_iff (m : Memory) :
    m.wf = true ↔ m.Pairwise (fun c d => c.1 < d.1) ∧ ∀ c ∈ m, c.1 < 256 ∧ c.2 ≠ Memory.unlisted := by
  simp [Memory.wf, List.all_eq_true]

theorem Memory.wf_nil : Memory.wf [] = true := by decide

theorem Memory.mem_insert {m : Memory} {a : Nat} {v : Byte} {c : Host.Cell} (h : c ∈ Memory.insert m a v) :
    c = (a, v) ∨ c ∈ m := by
  induction m with
  | nil => simpa [Memory.insert] using h
  | cons d m ih =>
    by_cases hlt : a < d.1
    · simpa [Memory.insert, hlt] using h
    · rcases (by simpa [Memory.insert, hlt] using h : c = d ∨ c ∈ Memory.insert m a v) with rfl | h
      · simp
      · rcases ih h with h | h <;> simp [h]

theorem Memory.pairwise_insert {m : Memory} {a : Nat} (v : Byte) (hm : m.Pairwise fun c d => c.1 < d.1)
    (ha : ∀ c ∈ m, c.1 ≠ a) : (Memory.insert m a v).Pairwise fun c d => c.1 < d.1 := by
  induction m with
  | nil => simp [Memory.insert]
  | cons d m ih =>
    obtain ⟨hd, hm'⟩ := List.pairwise_cons.mp hm
    by_cases hlt : a < d.1
    · simp only [Memory.insert, hlt, if_true, List.pairwise_cons]
      refine ⟨?_, hd, hm'⟩
      intro c hc
      rcases List.mem_cons.mp hc with rfl | hc
      · exact hlt
      · exact hlt.trans (hd c hc)
    · simp only [Memory.insert, hlt, if_false, List.pairwise_cons]
      refine ⟨?_, ih hm' fun c hc => ha c (by simp [hc])⟩
      intro c hc
      rcases Memory.mem_insert hc with rfl | hc
      · have := ha d (by simp)
        simp only
        omega
      · exact hd c hc

theorem Memory.wf_erase {m : Memory} (h : m.wf = true) (a : Nat) : (Memory.erase m a).wf = true := by
  rw [Memory.wf_iff] at h ⊢
  refine ⟨h.1.filter _, fun c hc => h.2 c ?_⟩
  exact (List.mem_filter.mp hc).1

/-- Every write inside the address space keeps the canonical form. -/
theorem Memory.wf_write {m : Memory} (h : m.wf = true) {a : Nat} (ha : a < 256) (v : Byte) :
    (m.write a v).wf = true := by
  unfold Memory.write
  by_cases hv : v = Memory.unlisted
  · simpa [hv] using Memory.wf_erase h a
  · have he := (Memory.wf_iff _).mp (Memory.wf_erase h a)
    simp only [hv, if_false]
    rw [Memory.wf_iff]
    refine ⟨Memory.pairwise_insert v he.1 (Memory.not_mem_erase m a), ?_⟩
    intro c hc
    rcases Memory.mem_insert hc with rfl | hc
    · exact ⟨ha, hv⟩
    · exact he.2 c hc

/-! ### Canonical memories that read alike are equal -/

theorem Memory.read_eq_unlisted {m : Memory} {a : Nat} (h : ∀ c ∈ m, c.1 ≠ a) : m.read a = Memory.unlisted := by
  induction m with
  | nil => rfl
  | cons c m ih =>
    have hc : c.1 ≠ a := h c (by simp)
    simpa [Memory.read, hc] using ih fun d hd => h d (by simp [hd])

/-- Equal memories are equal data: in the canonical form, reading alike at every address is equality. -/
theorem Memory.eq_of_read {m n : Memory} (hm : m.wf = true) (hn : n.wf = true)
    (h : ∀ a, m.read a = n.read a) : m = n := by
  rw [Memory.wf_iff] at hm hn
  induction m generalizing n with
  | nil =>
    cases n with
    | nil => rfl
    | cons d n =>
      have := h d.1
      simp [Memory.read] at this
      exact absurd this.symm (hn.2 d (by simp)).2
  | cons c m ih =>
    cases n with
    | nil =>
      have := h c.1
      simp [Memory.read] at this
      exact absurd this (hm.2 c (by simp)).2
    | cons d n =>
      obtain ⟨hc, hm'⟩ := List.pairwise_cons.mp hm.1
      obtain ⟨hd, hn'⟩ := List.pairwise_cons.mp hn.1
      have hkey : c.1 = d.1 := by
        rcases Nat.lt_trichotomy c.1 d.1 with hlt | heq | hgt
        · have h0 := h c.1
          rw [Memory.read_eq_unlisted (m := d :: n)] at h0
          · simp [Memory.read] at h0
            exact absurd h0 (hm.2 c (by simp)).2
          · intro e he
            rcases List.mem_cons.mp he with rfl | he
            · omega
            · have := hd e he
              omega
        · exact heq
        · have h0 := h d.1
          rw [Memory.read_eq_unlisted (m := c :: m)] at h0
          · simp [Memory.read] at h0
            exact absurd h0.symm (hn.2 d (by simp)).2
          · intro e he
            rcases List.mem_cons.mp he with rfl | he
            · omega
            · have := hc e he
              omega
      have hval : c.2 = d.2 := by
        have := h c.1
        simpa [Memory.read, hkey] using this
      have hcd : c = d := Prod.ext hkey hval
      subst hcd
      congr 1
      refine ih ⟨hm', fun e he => hm.2 e (by simp [he])⟩ ⟨hn', fun e he => hn.2 e (by simp [he])⟩ fun a => ?_
      by_cases ha : c.1 = a
      · rw [Memory.read_eq_unlisted (m := m), Memory.read_eq_unlisted (m := n)]
        · intro e he
          have := hd e he
          omega
        · intro e he
          have := hc e he
          omega
      · have := h a
        simpa [Memory.read, ha] using this

end Sys2Proof.Machine
end

