-- ==== Sys2Proof/Laws/State.lean ====
section
/-! SUPPORT. One lemma per field of State per update, so that no later proof unfolds a record update; and the laws of
reading a register after each update. -/

namespace Sys2Proof.Machine

/-! ### writeReg -/

@[simp] theorem State.writeReg_mem (s : State) (i : RegIndex) (v : Byte) : (s.writeReg i v).mem = s.mem := rfl
@[simp] theorem State.writeReg_regs (s : State) (i : RegIndex) (v : Byte) : (s.writeReg i v).regs = s.regs.set i.val v i.isLt := rfl
@[simp] theorem State.writeReg_pc (s : State) (i : RegIndex) (v : Byte) : (s.writeReg i v).pc = s.pc := rfl
@[simp] theorem State.writeReg_fl (s : State) (i : RegIndex) (v : Byte) : (s.writeReg i v).fl = s.fl := rfl
@[simp] theorem State.writeReg_status (s : State) (i : RegIndex) (v : Byte) : (s.writeReg i v).status = s.status := rfl
@[simp] theorem State.writeReg_fault (s : State) (i : RegIndex) (v : Byte) : (s.writeReg i v).fault = s.fault := rfl
@[simp] theorem State.writeReg_out (s : State) (i : RegIndex) (v : Byte) : (s.writeReg i v).out = s.out := rfl

/-! ### setPc -/

@[simp] theorem State.setPc_mem (s : State) (v : Byte) : (s.setPc v).mem = s.mem := rfl
@[simp] theorem State.setPc_regs (s : State) (v : Byte) : (s.setPc v).regs = s.regs := rfl
@[simp] theorem State.setPc_pc (s : State) (v : Byte) : (s.setPc v).pc = v := rfl
@[simp] theorem State.setPc_fl (s : State) (v : Byte) : (s.setPc v).fl = s.fl := rfl
@[simp] theorem State.setPc_status (s : State) (v : Byte) : (s.setPc v).status = s.status := rfl
@[simp] theorem State.setPc_fault (s : State) (v : Byte) : (s.setPc v).fault = s.fault := rfl
@[simp] theorem State.setPc_out (s : State) (v : Byte) : (s.setPc v).out = s.out := rfl

/-! ### setFl -/

@[simp] theorem State.setFl_mem (s : State) (v : Byte) : (s.setFl v).mem = s.mem := rfl
@[simp] theorem State.setFl_regs (s : State) (v : Byte) : (s.setFl v).regs = s.regs := rfl
@[simp] theorem State.setFl_pc (s : State) (v : Byte) : (s.setFl v).pc = s.pc := rfl
@[simp] theorem State.setFl_fl (s : State) (v : Byte) : (s.setFl v).fl = v := rfl
@[simp] theorem State.setFl_status (s : State) (v : Byte) : (s.setFl v).status = s.status := rfl
@[simp] theorem State.setFl_fault (s : State) (v : Byte) : (s.setFl v).fault = s.fault := rfl
@[simp] theorem State.setFl_out (s : State) (v : Byte) : (s.setFl v).out = s.out := rfl

/-! ### emit -/

@[simp] theorem State.emit_mem (s : State) (v : Byte) : (s.emit v).mem = s.mem := rfl
@[simp] theorem State.emit_regs (s : State) (v : Byte) : (s.emit v).regs = s.regs := rfl
@[simp] theorem State.emit_pc (s : State) (v : Byte) : (s.emit v).pc = s.pc := rfl
@[simp] theorem State.emit_fl (s : State) (v : Byte) : (s.emit v).fl = s.fl := rfl
@[simp] theorem State.emit_status (s : State) (v : Byte) : (s.emit v).status = s.status := rfl
@[simp] theorem State.emit_fault (s : State) (v : Byte) : (s.emit v).fault = s.fault := rfl
@[simp] theorem State.emit_out (s : State) (v : Byte) : (s.emit v).out = s.out ++ [v] := rfl

/-! ### halt -/

@[simp] theorem State.halt_mem (s : State) : s.halt.mem = s.mem := rfl
@[simp] theorem State.halt_regs (s : State) : s.halt.regs = s.regs := rfl
@[simp] theorem State.halt_pc (s : State) : s.halt.pc = s.pc := rfl
@[simp] theorem State.halt_fl (s : State) : s.halt.fl = s.fl := rfl
@[simp] theorem State.halt_status (s : State) : s.halt.status = .halted := rfl
@[simp] theorem State.halt_fault (s : State) : s.halt.fault = s.fault := rfl
@[simp] theorem State.halt_out (s : State) : s.halt.out = s.out := rfl

/-! ### raise -/

@[simp] theorem State.raise_mem (s : State) (k : FaultKind) : (s.raise k).mem = s.mem := rfl
@[simp] theorem State.raise_regs (s : State) (k : FaultKind) : (s.raise k).regs = s.regs := rfl
@[simp] theorem State.raise_pc (s : State) (k : FaultKind) : (s.raise k).pc = s.pc := rfl
@[simp] theorem State.raise_fl (s : State) (k : FaultKind) : (s.raise k).fl = s.fl := rfl
@[simp] theorem State.raise_status (s : State) (k : FaultKind) : (s.raise k).status = .halted := rfl
@[simp] theorem State.raise_fault (s : State) (k : FaultKind) : (s.raise k).fault = some k := rfl
@[simp] theorem State.raise_out (s : State) (k : FaultKind) : (s.raise k).out = s.out := rfl

/-! ### setMem -/

@[simp] theorem State.setMem_mem (s : State) (m : Memory) : (s.setMem m).mem = m := rfl
@[simp] theorem State.setMem_regs (s : State) (m : Memory) : (s.setMem m).regs = s.regs := rfl
@[simp] theorem State.setMem_pc (s : State) (m : Memory) : (s.setMem m).pc = s.pc := rfl
@[simp] theorem State.setMem_fl (s : State) (m : Memory) : (s.setMem m).fl = s.fl := rfl
@[simp] theorem State.setMem_status (s : State) (m : Memory) : (s.setMem m).status = s.status := rfl
@[simp] theorem State.setMem_fault (s : State) (m : Memory) : (s.setMem m).fault = s.fault := rfl
@[simp] theorem State.setMem_out (s : State) (m : Memory) : (s.setMem m).out = s.out := rfl

/-! ### Reading a register -/

/-- A register reads back what was written to it, and every other register is left alone (R11). -/
theorem State.readReg_writeReg (s : State) (i j : RegIndex) (v : Byte) :
    (s.writeReg i v).readReg j = if j = i then v else s.readReg j := by
  simp only [State.readReg, State.writeReg, Vector.get_eq_getElem, Vector.getElem_set, Fin.ext_iff, eq_comm]

@[simp] theorem State.readReg_writeReg_self (s : State) (i : RegIndex) (v : Byte) :
    (s.writeReg i v).readReg i = v := by
  simp [State.readReg_writeReg]

theorem State.readReg_writeReg_ne (s : State) {i j : RegIndex} (v : Byte) (h : j ≠ i) :
    (s.writeReg i v).readReg j = s.readReg j := by
  simp [State.readReg_writeReg, h]

@[simp] theorem State.readReg_setPc (s : State) (v : Byte) (r : RegIndex) : (s.setPc v).readReg r = s.readReg r := rfl
@[simp] theorem State.readReg_setMem (s : State) (m : Memory) (r : RegIndex) : (s.setMem m).readReg r = s.readReg r := rfl
@[simp] theorem State.readReg_setFl (s : State) (v : Byte) (r : RegIndex) : (s.setFl v).readReg r = s.readReg r := rfl
@[simp] theorem State.readReg_emit (s : State) (v : Byte) (r : RegIndex) : (s.emit v).readReg r = s.readReg r := rfl
@[simp] theorem State.readReg_halt (s : State) (r : RegIndex) : s.halt.readReg r = s.readReg r := rfl
@[simp] theorem State.readReg_raise (s : State) (k : FaultKind) (r : RegIndex) : (s.raise k).readReg r = s.readReg r := rfl

/-- `sp` is register 7 (R13). -/
theorem State.sp_eq (s : State) : s.sp = s.readReg 7 := rfl

/-- Two states with the same registers one by one have the same register file. -/
theorem State.regs_ext {s t : State} (h : ∀ r : RegIndex, t.readReg r = s.readReg r) : t.regs = s.regs := by
  refine Vector.ext fun i hi => ?_
  simpa [State.readReg, Vector.get_eq_getElem] using h ⟨i, hi⟩

/-! ### The stack pointer after an update -/

@[simp] theorem State.sp_setPc (s : State) (v : Byte) : (s.setPc v).sp = s.sp := rfl
@[simp] theorem State.sp_setMem (s : State) (m : Memory) : (s.setMem m).sp = s.sp := rfl
@[simp] theorem State.sp_setFl (s : State) (v : Byte) : (s.setFl v).sp = s.sp := rfl
@[simp] theorem State.sp_emit (s : State) (v : Byte) : (s.emit v).sp = s.sp := rfl
@[simp] theorem State.sp_halt (s : State) : s.halt.sp = s.sp := rfl
@[simp] theorem State.sp_raise (s : State) (k : FaultKind) : (s.raise k).sp = s.sp := rfl

@[simp] theorem State.sp_writeReg_sp (s : State) (v : Byte) : (s.writeReg spIndex v).sp = v := by
  simp [State.sp]

theorem State.sp_writeReg (s : State) (i : RegIndex) (v : Byte) :
    (s.writeReg i v).sp = if i = spIndex then v else s.sp := by
  simp [State.sp, State.readReg_writeReg, eq_comm]

end Sys2Proof.Machine
end

