-- ==== Sys2Proof/Laws/Ops.lean ====
section
/-! SUPPORT. One specification lemma per shared operation: what it answers, and exactly when. Later proofs cite these and
do not unfold the operations. -/

namespace Sys2Proof.Machine

/-! ### Sequencing operations that can raise -/

@[simp] theorem bind_ok {α β : Type} (x : α) (f : α → Except FaultKind β) :
    ((Except.ok x : Except FaultKind α) >>= f) = f x := rfl

@[simp] theorem bind_error {α β : Type} (k : FaultKind) (f : α → Except FaultKind β) :
    ((Except.error k : Except FaultKind α) >>= f) = .error k := rfl

/-! ### narrow (R38) -/

/-- In range, the answer is the byte with that value. -/
theorem narrow_natCast {n : Nat} (h : n ≤ 255) : narrow (n : Int) = .ok (BitVec.ofNat 8 n) := if_pos h

theorem narrow_error {n : Int} (h : ¬ (0 ≤ n ∧ n ≤ 255)) : narrow n = .error (.outOfBounds n) := by
  cases n with
  | ofNat n => exact if_neg fun hn => h ⟨Int.natCast_nonneg n, Int.ofNat_le.mpr hn⟩
  | negSucc n => rfl

theorem narrow_ok_iff (n : Int) (b : Byte) : narrow n = .ok b ↔ (b.toNat : Int) = n := by
  have hb := b.isLt
  by_cases h : 0 ≤ n ∧ n ≤ 255
  · obtain ⟨m, rfl⟩ := Int.eq_ofNat_of_zero_le h.1
    rw [narrow_natCast (by omega), Except.ok.injEq, ← BitVec.toNat_inj, BitVec.toNat_ofNat]
    omega
  · rw [narrow_error h]
    constructor
    · intro e
      cases e
    · intro e
      omega

theorem narrow_error_iff (n : Int) (k : FaultKind) :
    narrow n = .error k ↔ ¬ (0 ≤ n ∧ n ≤ 255) ∧ k = .outOfBounds n := by
  by_cases h : 0 ≤ n ∧ n ≤ 255
  · obtain ⟨m, rfl⟩ := Int.eq_ofNat_of_zero_le h.1
    rw [narrow_natCast (by omega)]
    simp [h]
  · rw [narrow_error h]
    simp [h, eq_comm]

/-- A byte is in range. -/
@[simp] theorem narrow_toNat (b : Byte) : narrow (b.toNat : Int) = .ok b := (narrow_ok_iff _ _).mpr rfl

theorem narrow_below {n : Int} (h : n < 0) : narrow n = .error (.outOfBounds n) :=
  (narrow_error_iff _ _).mpr ⟨by omega, rfl⟩

theorem narrow_above {n : Int} (h : 255 < n) : narrow n = .error (.outOfBounds n) :=
  (narrow_error_iff _ _).mpr ⟨by omega, rfl⟩

/-! ### Memory primitives (R32, R33) -/

/-- R32 at an address in range. -/
theorem State.memRead_nat (s : State) {n : Nat} (h : n ≤ 255) : s.memRead (n : Int) = .ok (s.mem.read n) := by
  rw [State.memRead, narrow_natCast h, bind_ok, BitVec.toNat_ofNat, Nat.mod_eq_of_lt (by omega)]

/-- A byte is always an address: reads at `sp` and at `pc` do not fail. -/
@[simp] theorem State.memRead_byte (s : State) (b : Byte) :
    s.memRead (b.toNat : Int) = .ok (s.mem.read b.toNat) :=
  s.memRead_nat (by have := b.isLt; omega)

/-- R32 out of range. -/
theorem State.memRead_error (s : State) {n : Int} (h : ¬ (0 ≤ n ∧ n ≤ 255)) :
    s.memRead n = .error (.outOfBounds n) := by
  rw [State.memRead, (narrow_error_iff _ _).mpr ⟨h, rfl⟩, bind_error]

/-- R33 at an address in range. -/
theorem State.memWrite_nat (s : State) {n : Nat} (h : n ≤ 255) (v : Byte) :
    s.memWrite (n : Int) v = .ok (s.setMem (s.mem.write n v)) := by
  rw [State.memWrite, narrow_natCast h, bind_ok, BitVec.toNat_ofNat, Nat.mod_eq_of_lt (by omega)]

/-- A byte is always an address: writes at `sp` do not fail. -/
@[simp] theorem State.memWrite_byte (s : State) (b v : Byte) :
    s.memWrite (b.toNat : Int) v = .ok (s.setMem (s.mem.write b.toNat v)) :=
  s.memWrite_nat (by have := b.isLt; omega) v

/-- R33 out of range. -/
theorem State.memWrite_error (s : State) {n : Int} (v : Byte) (h : ¬ (0 ≤ n ∧ n ≤ 255)) :
    s.memWrite n v = .error (.outOfBounds n) := by
  rw [State.memWrite, (narrow_error_iff _ _).mpr ⟨h, rfl⟩, bind_error]

/-- Everything a write that succeeds does: the address was in range and only that cell of memory changed. -/
theorem State.memWrite_ok {s t : State} {n : Int} {v : Byte} (h : s.memWrite n v = .ok t) :
    0 ≤ n ∧ n ≤ 255 ∧ t = s.setMem (s.mem.write n.toNat v) := by
  by_cases hn : 0 ≤ n ∧ n ≤ 255
  · obtain ⟨m, rfl⟩ := Int.eq_ofNat_of_zero_le hn.1
    rw [State.memWrite_nat s (by omega)] at h
    cases h
    exact ⟨hn.1, hn.2, by simp⟩
  · rw [State.memWrite_error s v hn] at h
    cases h

/-! ### Operands (R52, R146) -/

theorem regIndex_ok {v : Byte} (h : v.toNat < 8) : regIndex v = .ok ⟨v.toNat, h⟩ := by
  simp [regIndex, h]

theorem regIndex_error {v : Byte} (h : 8 ≤ v.toNat) : regIndex v = .error (.invalidRegister v) := by
  simp [regIndex, Nat.not_lt.mpr h]

/-- Everything the operand check can answer. -/
theorem regIndex_cases (v : Byte) :
    (∃ h : v.toNat < 8, regIndex v = .ok ⟨v.toNat, h⟩) ∨ (8 ≤ v.toNat ∧ regIndex v = .error (.invalidRegister v)) := by
  by_cases h : v.toNat < 8
  · exact .inl ⟨h, regIndex_ok h⟩
  · exact .inr ⟨by omega, regIndex_error (by omega)⟩

/-! ### pc + n (R16, R74) -/

theorem State.advance_ok {s : State} {n : Nat} (h : s.pc.toNat + n ≤ 255) :
    s.advance n = .ok (s.pc + BitVec.ofNat 8 n) := by
  rw [State.advance, narrow_ok_iff, BitVec.toNat_add, BitVec.toNat_ofNat]
  omega

theorem State.advance_error {s : State} {n : Nat} (h : 255 < s.pc.toNat + n) :
    s.advance n = .error (.outOfBounds ((s.pc.toNat : Int) + n)) :=
  narrow_above (by omega)

/-- What a sequential advance that succeeds gives, on unbounded numbers. -/
theorem State.advance_toNat {s : State} {n : Nat} {p : Byte} (h : s.advance n = .ok p) :
    p.toNat = s.pc.toNat + n := by
  rw [State.advance, narrow_ok_iff] at h
  omega

/-! ### The stack pointer (R111) -/

/-- The decremented value as a number. -/
theorem sp_sub_one_toNat {v : Byte} (h : 0 < v.toNat) : (v - 1).toNat = v.toNat - 1 := by
  have hv := v.isLt
  have h1 : (1 : Byte).toNat = 1 := rfl
  rw [BitVec.toNat_sub]
  omega

/-- The incremented value as a number. -/
theorem sp_add_one_toNat {v : Byte} (h : v.toNat < 255) : (v + 1).toNat = v.toNat + 1 := by
  have h1 : (1 : Byte).toNat = 1 := rfl
  rw [BitVec.toNat_add]
  omega

theorem State.spDec_ok {s : State} (h : 0 < s.sp.toNat) : s.spDec = .ok (s.writeReg spIndex (s.sp - 1)) := by
  have hd : spDecWith Config.stackWrap s.sp = .ok (s.sp - 1) := by
    simp only [spDecWith, Config.stackWrap, Bool.false_eq_true, if_false]
    rw [narrow_ok_iff, sp_sub_one_toNat h]
    omega
  rw [State.spDec, hd, bind_ok]

theorem State.spDec_error {s : State} (h : s.sp.toNat = 0) : s.spDec = .error (.outOfBounds (-1)) := by
  have hd : spDecWith Config.stackWrap s.sp = .error (.outOfBounds (-1)) := by
    simp only [spDecWith, Config.stackWrap, Bool.false_eq_true, if_false, h]
    exact narrow_below (by decide)
  rw [State.spDec, hd, bind_error]

theorem State.spInc_ok {s : State} (h : s.sp.toNat < 255) : s.spInc = .ok (s.writeReg spIndex (s.sp + 1)) := by
  have hd : spIncWith Config.stackWrap s.sp = .ok (s.sp + 1) := by
    simp only [spIncWith, Config.stackWrap, Bool.false_eq_true, if_false]
    rw [narrow_ok_iff, sp_add_one_toNat h]
    omega
  rw [State.spInc, hd, bind_ok]

theorem State.spInc_error {s : State} (h : s.sp.toNat = 255) : s.spInc = .error (.outOfBounds 256) := by
  have hd : spIncWith Config.stackWrap s.sp = .error (.outOfBounds 256) := by
    simp only [spIncWith, Config.stackWrap, Bool.false_eq_true, if_false, h]
    exact narrow_above (by decide)
  rw [State.spInc, hd, bind_error]

/-! ### Fetch (R71) -/

theorem State.fetch_ok {s : State} (h : s.pc.toNat ≤ 253) :
    s.fetch = .ok (s.mem.read s.pc.toNat, s.mem.read (s.pc.toNat + 1), s.mem.read (s.pc.toNat + 2)) := by
  have h1 : s.memRead ((s.pc.toNat : Int) + 1) = .ok (s.mem.read (s.pc.toNat + 1)) := by
    exact_mod_cast s.memRead_nat (n := s.pc.toNat + 1) (by omega)
  have h2 : s.memRead ((s.pc.toNat : Int) + 2) = .ok (s.mem.read (s.pc.toNat + 2)) := by
    exact_mod_cast s.memRead_nat (n := s.pc.toNat + 2) (by omega)
  simp only [State.fetch, State.memRead_byte, h1, h2, bind_ok]

/-- "a step started with `pc = 255` ... at the second read, and ... `pc = 254` ... at the third read": 256 both times. -/
theorem State.fetch_error {s : State} (h : 253 < s.pc.toNat) : s.fetch = .error (.outOfBounds 256) := by
  have hb := s.pc.isLt
  by_cases h255 : s.pc.toNat = 255
  · have h1 : s.memRead ((s.pc.toNat : Int) + 1) = .error (.outOfBounds 256) := by
      rw [h255]
      exact s.memRead_error (by decide)
    simp only [State.fetch, State.memRead_byte, h1, bind_ok, bind_error]
  · have h254 : s.pc.toNat = 254 := by omega
    have h1 : s.memRead ((s.pc.toNat : Int) + 1) = .ok (s.mem.read 255) := by
      rw [h254]
      exact s.memRead_nat (n := 255) (by decide)
    have h2 : s.memRead ((s.pc.toNat : Int) + 2) = .error (.outOfBounds 256) := by
      rw [h254]
      exact s.memRead_error (by decide)
    simp only [State.fetch, State.memRead_byte, h1, h2, bind_ok, bind_error]

/-! ### The end of a step (R70, R148) -/

@[simp] theorem State.commit_ok (s t : State) : s.commit (.ok t) = .next t := rfl

@[simp] theorem State.commit_error (s : State) (k : FaultKind) : s.commit (.error k) = .next (s.raise k) := rfl

/-- Everything a committed step can be: the instruction's own effect, or a fault and nothing else. -/
theorem State.commit_next {s t : State} {r : Except FaultKind State} (h : s.commit r = .next t) :
    r = .ok t ∨ ∃ k, r = .error k ∧ t = s.raise k := by
  cases r with
  | ok u => exact .inl (by cases h; rfl)
  | error k => exact .inr ⟨k, rfl, by cases h; rfl⟩

end Sys2Proof.Machine
end

