-- ==== Sys2Proof/Laws/Effect.lean ====
section
/-! SUPPORT. Says once everything the execute stage can do: the relation `Effect i s t` has one constructor per way an
instruction completes and one for a fault, and `exec_effect` shows that every next state of `exec` is one of them. Proofs
about all instructions go by cases on it. -/

namespace Sys2Proof.Machine

/-! ### The arms of exec -/

theorem exec_hlt (s : State) : exec .hlt s = execHlt s := rfl
theorem exec_ldi (ra imm : Byte) (s : State) : exec (.ldi ra imm) s = execLdi ra imm s := rfl
theorem exec_prn (ra : Byte) (s : State) : exec (.prn ra) s = execPrn ra s := rfl
theorem exec_mul (ra rb : Byte) (s : State) : exec (.mul ra rb) s = execMul ra rb s := rfl
theorem exec_add (ra rb : Byte) (s : State) : exec (.add ra rb) s = execAdd ra rb s := rfl
theorem exec_push (ra : Byte) (s : State) : exec (.push ra) s = execPush ra s := rfl
theorem exec_pop (ra : Byte) (s : State) : exec (.pop ra) s = execPop ra s := rfl
theorem exec_call (ra : Byte) (s : State) : exec (.call ra) s = execCall ra s := rfl
theorem exec_ret (s : State) : exec .ret s = execRet s := rfl
theorem exec_cmp (ra rb : Byte) (s : State) : exec (.cmp ra rb) s = execCmp ra rb s := rfl
theorem exec_jmp (ra : Byte) (s : State) : exec (.jmp ra) s = execJmp ra s := rfl
theorem exec_jeq (ra : Byte) (s : State) : exec (.jeq ra) s = execJeq ra s := rfl
theorem exec_jne (ra : Byte) (s : State) : exec (.jne ra) s = execJne ra s := rfl

/-! ### The operations that can fail, as alternatives -/

theorem State.spDec_cases (s : State) :
    (0 < s.sp.toNat ∧ s.spDec = .ok (s.writeReg spIndex (s.sp - 1))) ∨
      (s.sp.toNat = 0 ∧ s.spDec = .error (.outOfBounds (-1))) := by
  rcases Nat.eq_zero_or_pos s.sp.toNat with h | h
  · exact .inr ⟨h, State.spDec_error h⟩
  · exact .inl ⟨h, State.spDec_ok h⟩

theorem State.spInc_cases (s : State) :
    (s.sp.toNat < 255 ∧ s.spInc = .ok (s.writeReg spIndex (s.sp + 1))) ∨
      (s.sp.toNat = 255 ∧ s.spInc = .error (.outOfBounds 256)) := by
  have := s.sp.isLt
  rcases Nat.lt_or_ge s.sp.toNat 255 with h | h
  · exact .inl ⟨h, State.spInc_ok h⟩
  · exact .inr ⟨by omega, State.spInc_error (by omega)⟩

theorem State.advance_cases (s : State) (n : Nat) :
    (s.pc.toNat + n ≤ 255 ∧ s.advance n = .ok (s.pc + BitVec.ofNat 8 n)) ∨
      (255 < s.pc.toNat + n ∧ s.advance n = .error (.outOfBounds ((s.pc.toNat : Int) + n))) := by
  rcases Nat.lt_or_ge 255 (s.pc.toNat + n) with h | h
  · exact .inr ⟨h, State.advance_error h⟩
  · exact .inl ⟨by omega, State.advance_ok h⟩

/-! ### The relation -/

/-- The state in which PUSH and CALL read their operand: `sp` already decremented (D11). -/
def State.pushed (s : State) : State := s.writeReg spIndex (s.sp - 1)

/-- The state in which POP increments `sp`: the loaded byte already written (D11). -/
def State.popped (s : State) (a : RegIndex) : State := s.writeReg a (s.mem.read s.sp.toNat)

/-- The stack pointer after the decrement of PUSH and CALL. -/
@[simp] theorem State.sp_pushed (s : State) : s.pushed.sp = s.sp - 1 := by
  simp [State.pushed]

@[simp] theorem State.pushed_mem (s : State) : s.pushed.mem = s.mem := rfl
@[simp] theorem State.popped_mem (s : State) (a : RegIndex) : (s.popped a).mem = s.mem := rfl

/-- What PUSH and CALL read their operand as. -/
theorem State.readReg_pushed (s : State) (r : RegIndex) :
    s.pushed.readReg r = if r = spIndex then s.sp - 1 else s.readReg r := by
  simp [State.pushed, State.readReg_writeReg]

/-- The value POP increments: the loaded byte for R7, else the old stack pointer. -/
theorem State.sp_popped (s : State) (a : RegIndex) :
    (s.popped a).sp = if a = spIndex then s.mem.read s.sp.toNat else s.sp := by
  simp [State.popped, State.sp_writeReg]

theorem State.readReg_popped (s : State) (a r : RegIndex) :
    (s.popped a).readReg r = if r = a then s.mem.read s.sp.toNat else s.readReg r := by
  simp [State.popped, State.readReg_writeReg]

/-- How an instruction can end. A register operand byte `ra` that names a register is the number of `a` (R52). -/
inductive Effect : Instr → State → State → Prop where
  | raised {i s} (k : FaultKind) (hk : k ≠ .unsupportedOperation) : Effect i s (s.raise k)
  | hlt {s} (hp : s.pc.toNat + 1 ≤ 255) : Effect .hlt s (s.setPc (s.pc + 1)).halt
  | ldi {s ra} (imm : Byte) (a : RegIndex) (ha : ra.toNat = a.val) (hp : s.pc.toNat + 3 ≤ 255) :
      Effect (.ldi ra imm) s ((s.writeReg a imm).setPc (s.pc + 3))
  | prn {s ra} (a : RegIndex) (ha : ra.toNat = a.val) (hp : s.pc.toNat + 2 ≤ 255) :
      Effect (.prn ra) s ((s.emit (s.readReg a)).setPc (s.pc + 2))
  | mul {s ra rb} (a b : RegIndex) (ha : ra.toNat = a.val) (hb : rb.toNat = b.val) (hp : s.pc.toNat + 3 ≤ 255) :
      Effect (.mul ra rb) s ((s.writeReg a (s.readReg a * s.readReg b)).setPc (s.pc + 3))
  | add {s ra rb} (a b : RegIndex) (ha : ra.toNat = a.val) (hb : rb.toNat = b.val) (hp : s.pc.toNat + 3 ≤ 255) :
      Effect (.add ra rb) s ((s.writeReg a (s.readReg a + s.readReg b)).setPc (s.pc + 3))
  | push {s ra} (a : RegIndex) (ha : ra.toNat = a.val) (hs : 0 < s.sp.toNat) (hp : s.pc.toNat + 2 ≤ 255) :
      Effect (.push ra) s
        ((s.pushed.setMem (s.mem.write (s.sp - 1).toNat (s.pushed.readReg a))).setPc (s.pc + 2))
  | pop {s ra} (a : RegIndex) (ha : ra.toNat = a.val) (hs : (s.popped a).sp.toNat < 255) (hp : s.pc.toNat + 2 ≤ 255) :
      Effect (.pop ra) s (((s.popped a).writeReg spIndex ((s.popped a).sp + 1)).setPc (s.pc + 2))
  | call {s ra} (a : RegIndex) (ha : ra.toNat = a.val) (hs : 0 < s.sp.toNat) (hp : s.pc.toNat + 2 ≤ 255) :
      Effect (.call ra) s
        ((s.pushed.setMem (s.mem.write (s.sp - 1).toNat (s.pc + 2))).setPc (s.pushed.readReg a))
  | ret {s} (hs : s.sp.toNat < 255) :
      Effect .ret s ((s.writeReg spIndex (s.sp + 1)).setPc (s.mem.read s.sp.toNat))
  | cmp {s ra rb} (a b : RegIndex) (ha : ra.toNat = a.val) (hb : rb.toNat = b.val) (hp : s.pc.toNat + 3 ≤ 255) :
      Effect (.cmp ra rb) s ((s.setFl (compareFlags (s.readReg a) (s.readReg b))).setPc (s.pc + 3))
  | jmp {s ra} (a : RegIndex) (ha : ra.toNat = a.val) : Effect (.jmp ra) s (s.setPc (s.readReg a))
  | jeqTaken {s ra} (a : RegIndex) (ha : ra.toNat = a.val) (he : equalBit s.fl = true) :
      Effect (.jeq ra) s (s.setPc (s.readReg a))
  | jeqNot {s ra} (a : RegIndex) (ha : ra.toNat = a.val) (he : equalBit s.fl = false) (hp : s.pc.toNat + 2 ≤ 255) :
      Effect (.jeq ra) s (s.setPc (s.pc + 2))
  | jneTaken {s ra} (a : RegIndex) (ha : ra.toNat = a.val) (he : equalBit s.fl = false) :
      Effect (.jne ra) s (s.setPc (s.readReg a))
  | jneNot {s ra} (a : RegIndex) (ha : ra.toNat = a.val) (he : equalBit s.fl = true) (hp : s.pc.toNat + 2 ≤ 255) :
      Effect (.jne ra) s (s.setPc (s.pc + 2))

/-- A bounds or operand fault is one of the alternatives of `Effect`. -/
theorem Effect.of_raise {i : Instr} {s t : State} {k : FaultKind} (h : s.commit (.error k) = .next t)
    (hk : k ≠ .unsupportedOperation := by simp) : Effect i s t := by
  cases h
  exact .raised k hk

theorem execHlt_effect {s t : State} (h : execHlt s = .next t) : Effect .hlt s t := by
  unfold execHlt at h
  rcases s.advance_cases 1 with ⟨hp, e⟩ | ⟨-, e⟩ <;> rw [e] at h
  · cases h; exact .hlt hp
  · exact .of_raise h

theorem execLdi_effect {ra imm : Byte} {s t : State} (h : execLdi ra imm s = .next t) : Effect (.ldi ra imm) s t := by
  unfold execLdi at h
  rcases regIndex_cases ra with ⟨ha, ea⟩ | ⟨-, ea⟩ <;> rw [ea] at h
  · rcases s.advance_cases 3 with ⟨hp, e⟩ | ⟨-, e⟩ <;> rw [bind_ok, e] at h
    · cases h; exact .ldi imm _ rfl hp
    · exact .of_raise h
  · exact .of_raise h

theorem execPrn_effect {ra : Byte} {s t : State} (h : execPrn ra s = .next t) : Effect (.prn ra) s t := by
  unfold execPrn at h
  rcases regIndex_cases ra with ⟨ha, ea⟩ | ⟨-, ea⟩ <;> rw [ea] at h
  · rcases s.advance_cases 2 with ⟨hp, e⟩ | ⟨-, e⟩ <;> rw [bind_ok, e] at h
    · cases h; exact .prn _ rfl hp
    · exact .of_raise h
  · exact .of_raise h

/-- The common shape of ADD, MUL and CMP: both operands legal and `pc + 3` in range, or a fault. -/
theorem aluInstr_cases {op : AluOp} {ra rb : Byte} {s : State} (ho : ∀ a b, ∃ t, aluApply op a b s = .ok t) :
    (∃ a b : RegIndex, ∃ t, ra.toNat = a.val ∧ rb.toNat = b.val ∧ s.pc.toNat + 3 ≤ 255 ∧ aluApply op a b s = .ok t ∧
        aluInstr op ra rb s = .ok (t.setPc (s.pc + 3))) ∨
      ∃ k, k ≠ .unsupportedOperation ∧ aluInstr op ra rb s = .error k := by
  unfold aluInstr
  rcases regIndex_cases ra with ⟨ha, ea⟩ | ⟨-, ea⟩ <;> rw [ea]
  · rcases regIndex_cases rb with ⟨hb, eb⟩ | ⟨-, eb⟩ <;> rw [bind_ok, eb]
    · obtain ⟨t, et⟩ := ho ⟨ra.toNat, ha⟩ ⟨rb.toNat, hb⟩
      rcases s.advance_cases 3 with ⟨hp, e⟩ | ⟨-, e⟩ <;> rw [bind_ok, et, bind_ok, e]
      · exact .inl ⟨_, _, t, rfl, rfl, hp, et, rfl⟩
      · exact .inr ⟨_, by simp, rfl⟩
    · exact .inr ⟨_, by simp, rfl⟩
  · exact .inr ⟨_, by simp, rfl⟩

theorem execMul_effect {ra rb : Byte} {s t : State} (h : execMul ra rb s = .next t) : Effect (.mul ra rb) s t := by
  unfold execMul at h
  rcases aluInstr_cases (op := .mul) (ra := ra) (rb := rb) (s := s) fun _ _ => ⟨_, rfl⟩ with
    ⟨a, b, t', ha, hb, hp, et, e⟩ | ⟨k, hk, e⟩ <;> rw [e] at h
  · cases et; cases h; exact .mul a b ha hb hp
  · exact .of_raise h hk

theorem execAdd_effect {ra rb : Byte} {s t : State} (h : execAdd ra rb s = .next t) : Effect (.add ra rb) s t := by
  unfold execAdd at h
  rcases aluInstr_cases (op := .add) (ra := ra) (rb := rb) (s := s) fun _ _ => ⟨_, rfl⟩ with
    ⟨a, b, t', ha, hb, hp, et, e⟩ | ⟨k, hk, e⟩ <;> rw [e] at h
  · cases et; cases h; exact .add a b ha hb hp
  · exact .of_raise h hk

theorem execCmp_effect {ra rb : Byte} {s t : State} (h : execCmp ra rb s = .next t) : Effect (.cmp ra rb) s t := by
  unfold execCmp at h
  rcases aluInstr_cases (op := .cmp) (ra := ra) (rb := rb) (s := s) fun _ _ => ⟨_, rfl⟩ with
    ⟨a, b, t', ha, hb, hp, et, e⟩ | ⟨k, hk, e⟩ <;> rw [e] at h
  · cases et; cases h; exact .cmp a b ha hb hp
  · exact .of_raise h hk

theorem execPush_effect {ra : Byte} {s t : State} (h : execPush ra s = .next t) : Effect (.push ra) s t := by
  unfold execPush at h
  rcases regIndex_cases ra with ⟨ha, ea⟩ | ⟨-, ea⟩ <;> rw [ea] at h
  · rcases s.spDec_cases with ⟨hs, es⟩ | ⟨-, es⟩ <;> rw [bind_ok, es] at h
    · rcases s.advance_cases 2 with ⟨hp, e⟩ | ⟨-, e⟩ <;> rw [bind_ok, e] at h
      · rw [bind_ok, State.memWrite_byte, bind_ok, ← State.pushed, State.sp_pushed] at h
        cases h; exact .push _ rfl hs hp
      · exact .of_raise h
    · exact .of_raise h
  · exact .of_raise h

theorem execPop_effect {ra : Byte} {s t : State} (h : execPop ra s = .next t) : Effect (.pop ra) s t := by
  unfold execPop at h
  rcases regIndex_cases ra with ⟨ha, ea⟩ | ⟨-, ea⟩ <;> rw [ea] at h
  · rw [bind_ok, State.memRead_byte, bind_ok, ← State.popped] at h
    rcases (s.popped ⟨ra.toNat, ha⟩).spInc_cases with ⟨hs, es⟩ | ⟨-, es⟩ <;> rw [es] at h
    · rcases s.advance_cases 2 with ⟨hp, e⟩ | ⟨-, e⟩ <;> rw [bind_ok, e] at h
      · cases h; exact .pop _ rfl hs hp
      · exact .of_raise h
    · exact .of_raise h
  · exact .of_raise h

theorem execCall_effect {ra : Byte} {s t : State} (h : execCall ra s = .next t) : Effect (.call ra) s t := by
  unfold execCall at h
  rcases regIndex_cases ra with ⟨ha, ea⟩ | ⟨-, ea⟩ <;> rw [ea] at h
  · rcases s.spDec_cases with ⟨hs, es⟩ | ⟨-, es⟩ <;> rw [bind_ok, es] at h
    · rcases s.advance_cases 2 with ⟨hp, e⟩ | ⟨-, e⟩ <;> rw [bind_ok, e] at h
      · rw [bind_ok, State.memWrite_byte, bind_ok, ← State.pushed, State.sp_pushed] at h
        cases h; exact .call _ rfl hs hp
      · exact .of_raise h
    · exact .of_raise h
  · exact .of_raise h

theorem execRet_effect {s t : State} (h : execRet s = .next t) : Effect .ret s t := by
  unfold execRet at h
  rw [State.memRead_byte, bind_ok] at h
  rcases s.spInc_cases with ⟨hs, es⟩ | ⟨-, es⟩ <;> rw [es] at h
  · cases h; exact .ret hs
  · exact .of_raise h

theorem execJmp_effect {ra : Byte} {s t : State} (h : execJmp ra s = .next t) : Effect (.jmp ra) s t := by
  unfold execJmp at h
  rcases regIndex_cases ra with ⟨ha, ea⟩ | ⟨-, ea⟩ <;> rw [ea] at h
  · cases h; exact .jmp _ rfl
  · exact .of_raise h

/-- The common shape of JEQ and JNE. -/
theorem branchIf_cases (taken : Bool) (ra : Byte) (s : State) :
    (∃ a : RegIndex, ra.toNat = a.val ∧
      ((taken = true ∧ branchIf taken ra s = .ok (s.setPc (s.readReg a))) ∨
        (taken = false ∧ s.pc.toNat + 2 ≤ 255 ∧ branchIf taken ra s = .ok (s.setPc (s.pc + 2))))) ∨
      ∃ k, k ≠ .unsupportedOperation ∧ branchIf taken ra s = .error k := by
  unfold branchIf
  rcases regIndex_cases ra with ⟨ha, ea⟩ | ⟨-, ea⟩ <;> rw [ea]
  · cases taken with
    | true => exact .inl ⟨⟨ra.toNat, ha⟩, rfl, .inl ⟨rfl, rfl⟩⟩
    | false =>
      rcases s.advance_cases 2 with ⟨hp, e⟩ | ⟨-, e⟩ 
      · exact .inl ⟨⟨ra.toNat, ha⟩, rfl, .inr ⟨rfl, hp, by simp [e]⟩⟩
      · exact .inr ⟨.outOfBounds ((s.pc.toNat : Int) + (2 : Nat)), by simp, by simp [e]⟩
  · exact .inr ⟨_, by simp, rfl⟩

theorem execJeq_effect {ra : Byte} {s t : State} (h : execJeq ra s = .next t) : Effect (.jeq ra) s t := by
  unfold execJeq at h
  rcases branchIf_cases (equalBit s.fl) ra s with ⟨a, ha, ⟨he, e⟩ | ⟨he, hp, e⟩⟩ | ⟨k, hk, e⟩ <;> rw [e] at h
  · cases h; exact .jeqTaken a ha he
  · cases h; exact .jeqNot a ha he hp
  · exact .of_raise h hk

theorem execJne_effect {ra : Byte} {s t : State} (h : execJne ra s = .next t) : Effect (.jne ra) s t := by
  unfold execJne at h
  rcases branchIf_cases (!equalBit s.fl) ra s with ⟨a, ha, ⟨he, e⟩ | ⟨he, hp, e⟩⟩ | ⟨k, hk, e⟩ <;> rw [e] at h
  · cases h; exact .jneTaken a ha (by simpa using he)
  · cases h; exact .jneNot a ha (by simpa using he) hp
  · exact .of_raise h hk

/-- Everything the execute stage can do. -/
theorem exec_effect {i : Instr} {s t : State} (h : exec i s = .next t) : Effect i s t := by
  cases i with
  | hlt => exact execHlt_effect h
  | ldi ra imm => exact execLdi_effect h
  | prn ra => exact execPrn_effect h
  | mul ra rb => exact execMul_effect h
  | add ra rb => exact execAdd_effect h
  | push ra => exact execPush_effect h
  | pop ra => exact execPop_effect h
  | call ra => exact execCall_effect h
  | ret => exact execRet_effect h
  | cmp ra rb => exact execCmp_effect h
  | jmp ra => exact execJmp_effect h
  | jeq ra => exact execJeq_effect h
  | jne ra => exact execJne_effect h

end Sys2Proof.Machine
end

