-- ==== Sys2Proof/Laws/Completes.lean ====
section
/-! SUPPORT. The converse of `exec_effect`: under each completion's conditions the meaning answers exactly that state. -/

namespace Sys2Proof.Machine

/-- A legal operand byte names its register. -/
theorem regIndex_names {ra : Byte} {a : RegIndex} (ha : ra.toNat = a.val) : regIndex ra = .ok a := by
  have h : ra.toNat < 8 := ha ▸ a.isLt
  rw [regIndex_ok h]
  exact congrArg _ (Fin.ext ha)

theorem execHlt_completes {s : State} (hp : s.pc.toNat + 1 ≤ 255) :
    execHlt s = .next (s.setPc (s.pc + 1)).halt := by
  rw [execHlt, State.advance_ok hp]
  rfl

theorem execLdi_completes {ra : Byte} (imm : Byte) {a : RegIndex} {s : State} (ha : ra.toNat = a.val)
    (hp : s.pc.toNat + 3 ≤ 255) : execLdi ra imm s = .next ((s.writeReg a imm).setPc (s.pc + 3)) := by
  rw [execLdi, regIndex_names ha, bind_ok, State.advance_ok hp]
  rfl

theorem execPrn_completes {ra : Byte} {a : RegIndex} {s : State} (ha : ra.toNat = a.val) (hp : s.pc.toNat + 2 ≤ 255) :
    execPrn ra s = .next ((s.emit (s.readReg a)).setPc (s.pc + 2)) := by
  rw [execPrn, regIndex_names ha, bind_ok, State.advance_ok hp]
  rfl

/-- The common shape of ADD, MUL and CMP completes with the ALU's result. -/
theorem aluInstr_completes {op : AluOp} {ra rb : Byte} {a b : RegIndex} {s t : State} (ha : ra.toNat = a.val)
    (hb : rb.toNat = b.val) (hp : s.pc.toNat + 3 ≤ 255) (ht : aluApply op a b s = .ok t) :
    aluInstr op ra rb s = .ok (t.setPc (s.pc + 3)) := by
  rw [aluInstr, regIndex_names ha, bind_ok, regIndex_names hb, bind_ok, ht, bind_ok, State.advance_ok hp]
  rfl

theorem execMul_completes {ra rb : Byte} {a b : RegIndex} {s : State} (ha : ra.toNat = a.val) (hb : rb.toNat = b.val)
    (hp : s.pc.toNat + 3 ≤ 255) :
    execMul ra rb s = .next ((s.writeReg a (s.readReg a * s.readReg b)).setPc (s.pc + 3)) := by
  rw [execMul, aluInstr_completes ha hb hp rfl]
  rfl

theorem execAdd_completes {ra rb : Byte} {a b : RegIndex} {s : State} (ha : ra.toNat = a.val) (hb : rb.toNat = b.val)
    (hp : s.pc.toNat + 3 ≤ 255) :
    execAdd ra rb s = .next ((s.writeReg a (s.readReg a + s.readReg b)).setPc (s.pc + 3)) := by
  rw [execAdd, aluInstr_completes ha hb hp rfl]
  rfl

theorem execCmp_completes {ra rb : Byte} {a b : RegIndex} {s : State} (ha : ra.toNat = a.val) (hb : rb.toNat = b.val)
    (hp : s.pc.toNat + 3 ≤ 255) :
    execCmp ra rb s = .next ((s.setFl (compareFlags (s.readReg a) (s.readReg b))).setPc (s.pc + 3)) := by
  rw [execCmp, aluInstr_completes ha hb hp rfl]
  rfl

theorem execPush_completes {ra : Byte} {a : RegIndex} {s : State} (ha : ra.toNat = a.val) (hs : 0 < s.sp.toNat)
    (hp : s.pc.toNat + 2 ≤ 255) :
    execPush ra s = .next
      ((s.pushed.setMem (s.mem.write (s.sp - 1).toNat (s.pushed.readReg a))).setPc (s.pc + 2)) := by
  rw [execPush, regIndex_names ha, bind_ok, State.spDec_ok hs, bind_ok, State.advance_ok hp, bind_ok,
    State.memWrite_byte, bind_ok, ← State.pushed, State.sp_pushed]
  rfl

theorem execPop_completes {ra : Byte} {a : RegIndex} {s : State} (ha : ra.toNat = a.val)
    (hs : (s.popped a).sp.toNat < 255) (hp : s.pc.toNat + 2 ≤ 255) :
    execPop ra s = .next (((s.popped a).writeReg spIndex ((s.popped a).sp + 1)).setPc (s.pc + 2)) := by
  rw [execPop, regIndex_names ha, bind_ok, State.memRead_byte, bind_ok, ← State.popped, State.spInc_ok hs, bind_ok,
    State.advance_ok hp]
  rfl

theorem execCall_completes {ra : Byte} {a : RegIndex} {s : State} (ha : ra.toNat = a.val) (hs : 0 < s.sp.toNat)
    (hp : s.pc.toNat + 2 ≤ 255) :
    execCall ra s = .next
      ((s.pushed.setMem (s.mem.write (s.sp - 1).toNat (s.pc + 2))).setPc (s.pushed.readReg a)) := by
  rw [execCall, regIndex_names ha, bind_ok, State.spDec_ok hs, bind_ok, State.advance_ok hp, bind_ok,
    State.memWrite_byte, bind_ok, ← State.pushed, State.sp_pushed]
  rfl

theorem execRet_completes {s : State} (hs : s.sp.toNat < 255) :
    execRet s = .next ((s.writeReg spIndex (s.sp + 1)).setPc (s.mem.read s.sp.toNat)) := by
  rw [execRet, State.memRead_byte, bind_ok, State.spInc_ok hs]
  rfl

theorem execJmp_completes {ra : Byte} {a : RegIndex} {s : State} (ha : ra.toNat = a.val) :
    execJmp ra s = .next (s.setPc (s.readReg a)) := by
  rw [execJmp, regIndex_names ha]
  rfl

/-- A taken branch goes to the register's value. -/
theorem branchIf_taken {ra : Byte} {a : RegIndex} {s : State} (ha : ra.toNat = a.val) :
    branchIf true ra s = .ok (s.setPc (s.readReg a)) := by
  rw [branchIf, regIndex_names ha]
  rfl

/-- A branch not taken goes past its operand. -/
theorem branchIf_not {ra : Byte} {a : RegIndex} {s : State} (ha : ra.toNat = a.val) (hp : s.pc.toNat + 2 ≤ 255) :
    branchIf false ra s = .ok (s.setPc (s.pc + 2)) := by
  simp [branchIf, regIndex_names ha, State.advance_ok hp]

theorem execJeq_taken {ra : Byte} {a : RegIndex} {s : State} (ha : ra.toNat = a.val) (he : equalBit s.fl = true) :
    execJeq ra s = .next (s.setPc (s.readReg a)) := by
  rw [execJeq, he, branchIf_taken ha]
  rfl

theorem execJeq_not {ra : Byte} {a : RegIndex} {s : State} (ha : ra.toNat = a.val) (he : equalBit s.fl = false)
    (hp : s.pc.toNat + 2 ≤ 255) : execJeq ra s = .next (s.setPc (s.pc + 2)) := by
  rw [execJeq, he, branchIf_not ha hp]
  rfl

theorem execJne_taken {ra : Byte} {a : RegIndex} {s : State} (ha : ra.toNat = a.val) (he : equalBit s.fl = false) :
    execJne ra s = .next (s.setPc (s.readReg a)) := by
  rw [execJne, he, Bool.not_false, branchIf_taken ha]
  rfl

theorem execJne_not {ra : Byte} {a : RegIndex} {s : State} (ha : ra.toNat = a.val) (he : equalBit s.fl = true)
    (hp : s.pc.toNat + 2 ≤ 255) : execJne ra s = .next (s.setPc (s.pc + 2)) := by
  rw [execJne, he, Bool.not_true, branchIf_not ha hp]
  rfl

end Sys2Proof.Machine
end

