-- ==== Sys2Proof/Laws/Decode.lean ====
section
/-! SUPPORT. What the decoder can answer (R53, R56). -/

namespace Sys2Proof

/-- The list of mnemonics has all thirteen. -/
theorem Opcode.mem_all (o : Opcode) : o ∈ Opcode.all := by
  cases o <;> decide

/-- Whatever a match answers has that opcode byte. -/
theorem decodeOpcodeWith_some {t : Opcodes} {ir : Byte} {o : Opcode} {n : Nat}
    (h : decodeOpcodeWith t ir = some (o, n)) : t.value o = ir ∧ n = operandCount o := by
  obtain ⟨p, hp, he⟩ := Option.map_eq_some_iff.mp h
  cases he
  exact ⟨by simpa using List.find?_some hp, rfl⟩

/-- No match: the byte is none of the thirteen values. -/
theorem decodeOpcodeWith_none {t : Opcodes} {ir : Byte} :
    decodeOpcodeWith t ir = none ↔ ∀ o, t.value o ≠ ir := by
  simp [decodeOpcodeWith, List.find?_eq_none, Opcode.mem_all]

/-- Decoding fails exactly on a byte that is no opcode, and names it. -/
theorem decodeWith_error_iff {t : Opcodes} {ir a b : Byte} {e : DecodeError} :
    decodeWith t ir a b = .error e ↔ e = .unknownOpcode ir ∧ ∀ o, t.value o ≠ ir := by
  rw [← decodeOpcodeWith_none, decodeWith]
  cases decodeOpcodeWith t ir with
  | none => simp [eq_comm]
  | some p => simp

/-- Decoding succeeds exactly with a row of the table, on its opcode byte. -/
theorem decodeWith_ok {t : Opcodes} {ir a b : Byte} {i : Instr} (h : decodeWith t ir a b = .ok i) :
    ∃ o, t.value o = ir ∧ i = assemble o a b := by
  rw [decodeWith] at h
  split at h
  · rename_i o n ho
    cases h
    exact ⟨o, (decodeOpcodeWith_some ho).1, rfl⟩
  · cases h

end Sys2Proof
end

