-- ==== Sys2Proof/Laws/PerInstr.lean ====
section
/-! SUPPORT. Statements about every instruction as a term: one lemma per constructor. -/

namespace Sys2Proof.Laws

/-- The bytes of an instruction are its row's opcode value and as many operand bytes as the row counts (R50, R54), under
any choice of the OPC_* parameters. -/
def EncodedLength.Statement (i : Instr) : Prop :=
  ∀ t : Opcodes, (encodeWith t i).length = 1 + operandCount i.opcode ∧ (encodeWith t i).head? = some (t.value i.opcode)

theorem EncodedLength.hlt : EncodedLength.Statement .hlt := fun _ => ⟨rfl, rfl⟩
theorem EncodedLength.ldi (ra imm : Byte) : EncodedLength.Statement (.ldi ra imm) := fun _ => ⟨rfl, rfl⟩
theorem EncodedLength.prn (ra : Byte) : EncodedLength.Statement (.prn ra) := fun _ => ⟨rfl, rfl⟩
theorem EncodedLength.mul (ra rb : Byte) : EncodedLength.Statement (.mul ra rb) := fun _ => ⟨rfl, rfl⟩
theorem EncodedLength.add (ra rb : Byte) : EncodedLength.Statement (.add ra rb) := fun _ => ⟨rfl, rfl⟩
theorem EncodedLength.push (ra : Byte) : EncodedLength.Statement (.push ra) := fun _ => ⟨rfl, rfl⟩
theorem EncodedLength.pop (ra : Byte) : EncodedLength.Statement (.pop ra) := fun _ => ⟨rfl, rfl⟩
theorem EncodedLength.call (ra : Byte) : EncodedLength.Statement (.call ra) := fun _ => ⟨rfl, rfl⟩
theorem EncodedLength.ret : EncodedLength.Statement .ret := fun _ => ⟨rfl, rfl⟩
theorem EncodedLength.cmp (ra rb : Byte) : EncodedLength.Statement (.cmp ra rb) := fun _ => ⟨rfl, rfl⟩
theorem EncodedLength.jmp (ra : Byte) : EncodedLength.Statement (.jmp ra) := fun _ => ⟨rfl, rfl⟩
theorem EncodedLength.jeq (ra : Byte) : EncodedLength.Statement (.jeq ra) := fun _ => ⟨rfl, rfl⟩
theorem EncodedLength.jne (ra : Byte) : EncodedLength.Statement (.jne ra) := fun _ => ⟨rfl, rfl⟩

end Sys2Proof.Laws
end

