-- ==== Sys2Proof/Laws/Step.lean ====
section
/-! SUPPORT. Says once everything a step can do (R70): the cases of `stepWith`. -/

namespace Sys2Proof.Machine

theorem stepWith_halted {t : Opcodes} {s : State} (h : s.status = .halted) : stepWith t s = .fault .halted := by
  simp [stepWith, h]

/-- At the top of the address space the fetch faults before decode (R71). -/
theorem stepWith_fetch_fault {t : Opcodes} {s : State} (hr : s.status = .running) (h : 253 < s.pc.toNat) :
    stepWith t s = .next (s.raise (.outOfBounds 256)) := by
  simp [stepWith, hr, State.fetch_error h]

/-- No row matches (R72). -/
theorem stepWith_unknown {t : Opcodes} {s : State} (hr : s.status = .running) (h : s.pc.toNat ≤ 253)
    (hu : ∀ o, t.value o ≠ s.mem.read s.pc.toNat) :
    stepWith t s = .next (s.raise (.unknownOpcode (s.mem.read s.pc.toNat))) := by
  have hd : decodeWith t (s.mem.read s.pc.toNat) (s.mem.read (s.pc.toNat + 1)) (s.mem.read (s.pc.toNat + 2)) =
      .error (.unknownOpcode (s.mem.read s.pc.toNat)) := decodeWith_error_iff.mpr ⟨rfl, hu⟩
  simp [stepWith, hr, State.fetch_ok h, hd, decodeFault]

/-- A row matches: the step is the instruction's meaning. -/
theorem stepWith_exec {t : Opcodes} {s : State} {i : Instr} (hr : s.status = .running) (h : s.pc.toNat ≤ 253)
    (hd : decodeWith t (s.mem.read s.pc.toNat) (s.mem.read (s.pc.toNat + 1)) (s.mem.read (s.pc.toNat + 2)) = .ok i) :
    stepWith t s = exec i s := by
  simp [stepWith, hr, State.fetch_ok h, hd]

/-- Everything a step can be. -/
theorem stepWith_cases (t : Opcodes) (s : State) :
    (s.status = .halted ∧ stepWith t s = .fault .halted) ∨
      (s.status = .running ∧ ∃ k, k ≠ .unsupportedOperation ∧ stepWith t s = .next (s.raise k)) ∨
      (s.status = .running ∧ s.pc.toNat ≤ 253 ∧ ∃ i,
        decodeWith t (s.mem.read s.pc.toNat) (s.mem.read (s.pc.toNat + 1)) (s.mem.read (s.pc.toNat + 2)) = .ok i ∧
          stepWith t s = exec i s) := by
  rcases hr : s.status with _ | _
  · by_cases h : s.pc.toNat ≤ 253
    · cases hd : decodeWith t (s.mem.read s.pc.toNat) (s.mem.read (s.pc.toNat + 1)) (s.mem.read (s.pc.toNat + 2)) with
      | ok i => exact .inr (.inr ⟨rfl, h, i, rfl, stepWith_exec hr h hd⟩)
      | error e =>
        have hu := decodeWith_error_iff.mp hd
        exact .inr (.inl ⟨rfl, _, by simp, stepWith_unknown hr h hu.2⟩)
    · exact .inr (.inl ⟨rfl, _, by simp, stepWith_fetch_fault hr (by omega)⟩)
  · exact .inl ⟨rfl, stepWith_halted hr⟩

end Sys2Proof.Machine
end

