-- ==== Sys2Proof/Tests/Slice0.lean ====
section
/-! SUPPORT. The model's own tests: single steps against the vectors of spec/95_test_vectors.md, words written out from the
encodings of spec/30_encoding.md, ill-formed instructions, and a witness for the hypotheses of every statement. -/

namespace Sys2Proof.Tests

open Sys2Proof.Machine

/-! ### Helpers -/

/-- Bytes stored from an address on. -/
def place : Nat → List Byte → Memory → Memory
  | _, [], m => m
  | a, v :: vs, m => (place (a + 1) vs m).write a v

/-- The reset state with `bytes` at `p` and `pc = p`. -/
def startAt (p : Byte) (bytes : List Byte) : State := { State.reset with mem := place p.toNat bytes [], pc := p }

/-- The next state, where there is one. -/
def after : Host.Outcome State Fault Refusal → Option State
  | .next t => some t
  | _ => none

/-- A view of the next state. -/
def seen {α : Type} (o : Host.Outcome State Fault Refusal) (f : State → α) : Option α := (after o).map f

/-! ### WellFormed: each check refuses an ill-formed term (R52, R57) -/

theorem test_illformed_ldi : (Instr.ldi 8 0).wf = false := by decide
theorem test_illformed_prn : (Instr.prn 8).wf = false := by decide
theorem test_illformed_mul : (Instr.mul 8 0).wf = false ∧ (Instr.mul 0 8).wf = false := by decide
theorem test_illformed_add : (Instr.add 255 0).wf = false ∧ (Instr.add 7 255).wf = false := by decide
theorem test_illformed_cmp : (Instr.cmp 9 1).wf = false ∧ (Instr.cmp 1 9).wf = false := by decide
theorem test_illformed_push : (Instr.push 8).wf = false := by decide
theorem test_illformed_pop : (Instr.pop 128).wf = false := by decide
theorem test_illformed_call : (Instr.call 8).wf = false := by decide
theorem test_illformed_jmp : (Instr.jmp 8).wf = false := by decide
theorem test_illformed_jeq : (Instr.jeq 16).wf = false := by decide
theorem test_illformed_jne : (Instr.jne 9).wf = false := by decide
theorem test_wellformed_immediate_unchecked : (Instr.ldi 7 255).wf = true := by decide

/-! ### Decode: words written out bit by bit from R50 and R54 -/

theorem test_decode_hlt : decode 0b00000001 0b11111111 0b11111111 = .ok .hlt := by rfl
theorem test_decode_ldi : decode 0b10000010 0b00000011 0b11111111 = .ok (.ldi 3 255) := by rfl
theorem test_decode_prn : decode 0b01000111 0b00000111 0b00000001 = .ok (.prn 7) := by rfl
theorem test_decode_mul : decode 0b10100010 0b00000101 0b00000110 = .ok (.mul 5 6) := by rfl
theorem test_decode_add : decode 0b10100000 0b00000110 0b00000101 = .ok (.add 6 5) := by rfl
theorem test_decode_push : decode 0b01000101 0b00000001 0b00000000 = .ok (.push 1) := by rfl
theorem test_decode_pop : decode 0b01000110 0b00000010 0b00000000 = .ok (.pop 2) := by rfl
theorem test_decode_call : decode 0b01010000 0b00000100 0b10101010 = .ok (.call 4) := by rfl
theorem test_decode_ret : decode 0b00010001 0b00000000 0b00000000 = .ok .ret := by rfl
theorem test_decode_cmp : decode 0b10100111 0b00000000 0b00000010 = .ok (.cmp 0 2) := by rfl
theorem test_decode_jmp : decode 0b01010100 0b00000011 0b00000000 = .ok (.jmp 3) := by rfl
theorem test_decode_jeq : decode 0b01010101 0b00000010 0b00000000 = .ok (.jeq 2) := by rfl
theorem test_decode_jne : decode 0b01010110 0b00001001 0b00000000 = .ok (.jne 9) := by rfl
/-- V-SYS9 to V-SYS11 and D2: 0x00, 0xFF, 0x83, 0xA1 are no opcodes. -/
theorem test_decode_illegal : decode 0x00 0 0 = .error (.unknownOpcode 0x00) ∧
    decode 0xFF 0 0 = .error (.unknownOpcode 0xFF) ∧ decode 0x83 0 0 = .error (.unknownOpcode 0x83) ∧
    decode 0xA1 0 1 = .error (.unknownOpcode 0xA1) := ⟨rfl, rfl, rfl, rfl⟩
/-- The bytes of `LDI R0, 8`, in R62's example. -/
theorem test_encode_ldi : encode (.ldi 0 8) = [0b10000010, 0b00000000, 0b00001000] := by decide
/-- The table's numbering: byte 1 is bits 15..8, byte 2 is bits 23..16; bits above nbits are 0. -/
theorem test_table_word : decodeTableWord 24 0x080382 = some (.ldi 3 8) ∧ decodeTableWord 8 0x082 = some (.ldi 0 0) ∧
    decodeTableWord 8 0x00 = none := by decide

/-! ### Fetching a placed word -/

theorem test_withFetchWord_bytes : (State.reset.withFetchWord 24 0x080382).fetched = (0x82, 0x03, 0x08) := by decide
theorem test_withFetchWord_runs :
    seen (step (State.reset.withFetchWord 24 0x080382)) (fun t => (t.readReg 3, t.pc)) = some (8, 3) := by decide

/-! ### One step each (95_test_vectors.md, the vector's id named) -/

/-- V-SYS1. -/
theorem test_hlt : seen (step (startAt 11 [0x01])) (fun t => (t.pc, t.status, t.fault)) =
    some (12, .halted, none) := by decide
/-- V-SYS3: not a clean halt. -/
theorem test_hlt_at_254 : seen (step (startAt 254 [0x01])) (fun t => (t.pc, t.status, t.fault)) =
    some (254, .halted, some (.outOfBounds 256)) := by decide
/-- V-SYS6. -/
theorem test_prn : seen (step ((startAt 9 [0x47, 0]).writeReg 0 72)) (fun t => (t.out, t.pc)) = some ([72], 11) := by
  decide
/-- V-SYS8. -/
theorem test_prn_invalid : seen (step (startAt 0 [0x47, 8])) (fun t => (t.out, t.fault)) =
    some ([], some (.invalidRegister 8)) := by decide
/-- V-LDI1. -/
theorem test_ldi : seen (step (startAt 0 [0x82, 0, 8])) (fun t => (t.readReg 0, t.pc)) = some (8, 3) := by decide
/-- V-LDI6. -/
theorem test_ldi_at_253 : seen (step (startAt 253 [0x82, 0, 5])) (fun t => (t.readReg 0, t.pc, t.fault)) =
    some (0, 253, some (.outOfBounds 256)) := by decide
/-- V-ADD1, the source's example. -/
theorem test_add_wraps : seen (step (((startAt 0 [0xA0, 0, 1]).writeReg 0 255).writeReg 1 2))
    (fun t => (t.readReg 0, t.readReg 1, t.fl, t.pc)) = some (1, 2, 0, 3) := by decide
/-- `A0 09 0A`: `a` is checked first. -/
theorem test_add_invalid : seen (step (startAt 0 [0xA0, 9, 10])) (fun t => (t.pc, t.fault)) =
    some (0, some (.invalidRegister 9)) := by decide
/-- V-MUL4. -/
theorem test_mul : seen (step (((startAt 0 [0xA2, 0, 1]).writeReg 0 200).writeReg 1 3))
    (fun t => (t.readReg 0, t.pc)) = some (88, 3) := by decide
/-- V-MUL8: the same register twice. -/
theorem test_mul_square : seen (step ((startAt 0 [0xA2, 4, 4]).writeReg 4 17)) (fun t => t.readReg 4) = some 33 := by
  decide
/-- V-SUB2, through the ALU. -/
theorem test_alu_sub : (aluApply .sub 0 1 ((State.reset.writeReg 0 5).writeReg 1 10)).toOption.map
    (fun t => (t.readReg 0, t.fl)) = some (251, 0) := by decide
/-- V-CMP5: unsigned. -/
theorem test_cmp_unsigned : seen (step ((((startAt 0 [0xA7, 0, 1]).writeReg 0 0x80).writeReg 1 0x7F).setFl 1))
    (fun t => (t.fl, t.pc)) = some (2, 3) := by decide
/-- V-CMP4: the old L is cleared. -/
theorem test_cmp_equal : seen (step ((startAt 0 [0xA7, 0, 1]).setFl 4)) (fun t => t.fl) = some 1 := by decide
/-- V-ST1. -/
theorem test_push : seen (step ((startAt 0 [0x45, 0]).writeReg 0 1)) (fun t => (t.sp, t.mem.read 0xF3, t.pc)) =
    some (0xF3, 1, 2) := by decide
/-- V-ST4: PUSH R7 stores the decremented pointer. -/
theorem test_push_sp : seen (step (startAt 0 [0x45, 7])) (fun t => (t.sp, t.mem.read 0xF3)) = some (0xF3, 0xF3) := by
  decide
/-- V-ST2. -/
theorem test_pop : seen (step (((startAt 0 [0x46, 0]).setMem (place 0xF2 [2] (place 0 [0x46, 0] []))).writeReg 7 0xF2))
    (fun t => (t.readReg 0, t.sp, t.mem.read 0xF2, t.pc)) = some (2, 0xF3, 2, 2) := by decide
/-- V-ST6: POP R7 ends one above the loaded value. -/
theorem test_pop_sp : seen (step (((startAt 0 [0x46, 7]).setMem (place 0x20 [0x40] (place 0 [0x46, 7] []))).writeReg 7 0x20))
    (fun t => t.sp) = some 0x41 := by decide
/-- V-CT1. -/
theorem test_call : seen (step ((startAt 6 [0x50, 1]).writeReg 1 11)) (fun t => (t.sp, t.mem.read 0xF3, t.pc)) =
    some (0xF3, 8, 11) := by decide
/-- V-CT12: CALL R7. -/
theorem test_call_sp : seen (step (startAt 0 [0x50, 7])) (fun t => (t.sp, t.mem.read 0xF3, t.pc)) =
    some (0xF3, 2, 0xF3) := by decide
/-- V-CT2. -/
theorem test_ret : seen (step (((startAt 14 [0x11]).setMem (place 0xF3 [8] (place 14 [0x11] []))).writeReg 7 0xF3))
    (fun t => (t.pc, t.sp)) = some (8, 0xF4) := by decide
/-- V-CT11. -/
theorem test_ret_at_255 : seen (step ((startAt 0 [0x11]).writeReg 7 255)) (fun t => (t.pc, t.sp, t.fault)) =
    some (0, 255, some (.outOfBounds 256)) := by decide
/-- V-CT3. -/
theorem test_jmp : seen (step ((startAt 20 [0x54, 3]).writeReg 3 12)) (fun t => t.pc) = some 12 := by decide
/-- V-CT4 and V-CT5. -/
theorem test_jeq : seen (step (((startAt 12 [0x55, 2]).writeReg 2 17).setFl 1)) (fun t => t.pc) = some 17 ∧
    seen (step (((startAt 12 [0x55, 2]).writeReg 2 17).setFl 4)) (fun t => t.pc) = some 14 := by decide
/-- V-CT6 and V-CT7. -/
theorem test_jne : seen (step (((startAt 20 [0x56, 3]).writeReg 3 12).setFl 4)) (fun t => t.pc) = some 12 ∧
    seen (step (((startAt 20 [0x56, 3]).writeReg 3 12).setFl 1)) (fun t => t.pc) = some 22 := by decide
/-- V-CT14: the operand is checked although the jump would not be taken. -/
theorem test_jne_invalid : seen (step ((startAt 0 [0x56, 9]).setFl 1)) (fun t => (t.pc, t.fault)) =
    some (0, some (.invalidRegister 9)) := by decide
/-- V-ST7: PUSH at the bottom of memory. -/
theorem test_push_at_zero : seen (step ((startAt 0 [0x45, 0]).writeReg 7 0)) (fun t => (t.sp, t.mem.read 255, t.fault)) =
    some (0, 0, some (.outOfBounds (-1))) := by decide
/-- V-SYS9. -/
theorem test_unknown_opcode : seen (step State.reset) (fun t => (t.pc, t.status, t.fault)) =
    some (0, .halted, some (.unknownOpcode 0)) := by decide
/-- V-LOAD1, V-LOAD4 and R46. -/
theorem test_load : seen (load [1] State.reset) (fun t => (t.mem, t.pc)) = some ([(0, 1)], 0) ∧
    load [] State.reset = .fault .loadError ∧ load [256] State.reset = .refused (.loadEntryNotByte 256) :=
  ⟨by decide, rfl, rfl⟩
/-- R82: 72 appears as `7`, `2`, line feed, and 0 as `0`, line feed. -/
theorem test_render : renderByte 72 = ['7', '2', '\n'] ∧ renderByte 0 = ['0', '\n'] ∧
    renderByte 105 = ['1', '0', '5', '\n'] := by decide

/-! ### The hypotheses of each statement are met: a witness for each, at the edge of its range -/

/-- StepKeepsTheInvariant. -/
theorem witness_step_keeps_invariant :
    (startAt 0 [0x45, 0]).Inv ∧ (after (step (startAt 0 [0x45, 0]))).isSome = true :=
  ⟨⟨by decide, by decide, by simp [startAt, State.reset]⟩, by decide⟩
/-- DecodeOfEncodeIsTheInstruction: the longest and the shortest instruction, operand bytes at the top. -/
theorem witness_decode_of_encode : standardOpcodes.Distinct ∧
    (encode (.ldi 255 255) ++ [])[2]? = some 255 ∧ (encode .hlt ++ [7, 9])[1]? = some 7 ∧
    (encode .hlt ++ [7, 9])[2]? = some 9 := by decide
/-- DecodeIsExactMatch: both clauses. -/
theorem witness_exact_match : standardOpcodes.Distinct ∧ standardOpcodes.value .ldi = 0x82 ∧
    ∀ o ∈ Opcode.all, standardOpcodes.value o ≠ 0x83 := by decide
/-- EveryOtherOpcodeByteIsIllegal. -/
theorem witness_illegal_byte :
    (0x00 : Byte) ∉ ([0x01, 0x82, 0x47, 0xA2, 0xA0, 0x45, 0x46, 0x50, 0x11, 0xA7, 0x54, 0x55, 0x56] : List Byte) := by
  decide
/-- UnusedOperandBytesAreIgnored: an instruction of each operand count below 2. -/
theorem witness_unused_bytes : decode 0x11 1 2 = .ok .ret ∧ operandCount (Instr.opcode .ret) = 0 ∧
    decode 0x47 1 2 = .ok (.prn 1) ∧ operandCount (Instr.opcode (.prn 1)) = 1 := ⟨rfl, rfl, rfl, rfl⟩
/-- StepRunsTheDecodedInstruction and StepExecutesTheEncodedInstruction, at the last address a step can start from. -/
theorem witness_step_runs : (startAt 253 [0x82, 8, 5]).status = .running ∧ (startAt 253 [0x82, 8, 5]).pc.toNat ≤ 253 ∧
    decode ((startAt 253 [0x82, 8, 5]).mem.read 253) ((startAt 253 [0x82, 8, 5]).mem.read 254)
      ((startAt 253 [0x82, 8, 5]).mem.read 255) = .ok (.ldi 8 5) := ⟨by decide, by decide, rfl⟩
/-- StepExecutesTheEncodedInstruction. -/
theorem witness_step_executes_encoded (k : Nat) (v : Byte)
    (h : (encodeWith standardOpcodes (.ldi 8 5))[k]? = some v) :
    (startAt 253 [0x82, 8, 5]).mem.read ((startAt 253 [0x82, 8, 5]).pc.toNat + k) = v := by
  match k, h with
  | 0, h => cases h; rfl
  | 1, h => cases h; rfl
  | 2, h => cases h; rfl
/-- StepMatchesTheOpcodeOrRaisesUnknownOpcode: both clauses, at `pc` = 253 and 0. -/
theorem witness_match_or_unknown : (startAt 253 [0x01]).status = .running ∧ (startAt 253 [0x01]).pc.toNat ≤ 253 ∧
    standardOpcodes.value .hlt = (startAt 253 [0x01]).mem.read 253 ∧
    (startAt 0 [0xA1]).status = .running ∧ (startAt 0 [0xA1]).pc.toNat ≤ 253 ∧
    ∀ o ∈ Opcode.all, standardOpcodes.value o ≠ (startAt 0 [0xA1]).mem.read 0 := by decide
/-- FetchAtTheTopFaults: both addresses. -/
theorem witness_fetch_top : (startAt 254 [0x01]).status = .running ∧ 254 ≤ (startAt 254 [0x01]).pc.toNat ∧
    254 ≤ (startAt 255 [0x00]).pc.toNat := by decide
/-- ZeroedMemoryIsNoInstruction. -/
theorem witness_zeroed : (startAt 253 []).status = .running ∧ (startAt 253 []).pc.toNat ≤ 253 ∧
    (startAt 253 []).mem.read 253 = 0x00 := by decide
/-- HaltedHasNoStep, and after HLT there is such a state. -/
theorem witness_halted : State.reset.halt.status = .halted ∧
    seen (step (startAt 0 [0x01])) (fun t => t.status) = some .halted := by decide
/-- FaultsArePrecise. -/
theorem witness_precise : (startAt 0 [0xA1]).fault = none ∧
    seen (step (startAt 0 [0xA1])) (fun t => t.fault) = some (some (.unknownOpcode 0xA1)) := by decide
/-- FaultIsWrittenAtMostOnce. -/
theorem witness_fault_once : (State.reset.raise (.invalidRegister 9)).Inv ∧
    (State.reset.raise (.invalidRegister 9)).fault = some (.invalidRegister 9) :=
  ⟨⟨by decide, by decide, fun _ => rfl⟩, rfl⟩
/-- CleanHaltOnlyByHlt and OutputGrowsOnlyByPrn: a step that halts cleanly, and one that does not. -/
theorem witness_clean_halt : (startAt 253 [0x01]).fault = none ∧
    seen (step (startAt 253 [0x01])) (fun t => (t.status, t.fault, t.pc)) = some (.halted, none, 254) ∧
    seen (step (startAt 252 [0x47, 7])) (fun t => (t.status, t.out)) = some (.running, [0xF4]) := by decide
/-- UnsupportedOperationIsOnlyTheAlus: a step that faults and one that does not. -/
theorem witness_unsupported : State.reset.fault = none ∧ (after (step State.reset)).isSome = true := by decide
/-- FlIsWrittenOnlyByCmpAndReadOnlyByBranches: its four clauses. -/
theorem witness_fl : (after (exec (.add 0 1) State.reset)).isSome = true ∧
    seen (exec (.cmp 7 0) State.reset) (fun t => (t.fl, t.fault)) = some (0x02, none) ∧
    (0x07 : Byte).getLsbD 0 = (State.reset.setFl 0x01).fl.getLsbD 0 ∧
    (after (exec (.jeq 1) (State.reset.setFl 0x01))).isSome = true ∧
    (after (exec (.jeq 1) (State.reset.setFl 0x07))).isSome = true ∧ (7 : Byte).toNat = (7 : RegIndex).val := by decide
/-- RegistersChangeOnlyByTheTable, MemoryChangesOnlyBelowTheStackPointer: `sp` at 0, at 1, and an instruction that stores
nothing. -/
theorem witness_frames : (after (exec (.push 0) (State.reset.writeReg 7 0))).isSome = true ∧
    (after (exec (.call 0) (State.reset.writeReg 7 1))).isSome = true ∧
    (after (exec (.pop 7) State.reset)).isSome = true ∧ (0 : Nat) ∉ regsWritten (.pop 7) := by decide
/-- NewPcOfEveryInstruction: a sequential instruction at the last address it fits, a transfer, a fall-through. -/
theorem witness_new_pc : (startAt 252 []).fault = none ∧ (startAt 252 []).pc.toNat ≤ 253 ∧
    seen (exec (.ldi 0 1) (startAt 252 [])) (fun t => (t.fault, t.pc)) = some (none, 255) ∧
    seen (exec (.call 7) (startAt 253 [])) (fun t => (t.fault, t.pc)) = some (none, 0xF3) ∧
    seen (exec .ret (startAt 253 [])) (fun t => (t.fault, t.pc)) = some (none, 0) ∧
    seen (exec (.jmp 7) (startAt 253 [])) (fun t => (t.fault, t.pc)) = some (none, 0xF4) ∧
    seen (exec (.jeq 7) (startAt 253 [])) (fun t => (t.fault, t.pc)) = some (none, 255) ∧
    seen (exec (.jne 7) (startAt 253 [])) (fun t => (t.fault, t.pc)) = some (none, 0xF4) := by decide
/-- HltHalts, PrnEmitsTheRegister, BranchesAreComplements: register 7 and the last address. -/
theorem witness_pc_253 : Names 7 7 ∧ Names 0 0 ∧ (startAt 253 []).pc.toNat ≤ 253 := ⟨rfl, rfl, by decide⟩
/-- LdiLoadsTheImmediate, AddWrapsModulo256, MulKeepsTheLowByte, CmpSetsExactlyOneFlag: the last address. -/
theorem witness_pc_252 : Names 7 7 ∧ Names 0 0 ∧ (startAt 252 []).pc.toNat ≤ 252 := ⟨rfl, rfl, by decide⟩
/-- PushStoresBelowTheStackPointer, CallPushesTheReturnAddress, RetReturnsAfterTheCall, at `sp` = 1; for the last, a state
in which RET finds what CALL left. -/
theorem witness_push_call : Names 7 7 ∧ Names 6 6 ∧ ((startAt 253 []).writeReg 7 1).pc.toNat ≤ 253 ∧
    0 < ((startAt 253 []).writeReg 7 1).sp.toNat ∧
    seen (exec (.call 7) ((startAt 253 []).writeReg 7 1)) (fun t => (t.sp, t.mem.read 0)) = some (0, 255) :=
  ⟨rfl, rfl, by decide, by decide, by decide⟩
/-- PopLoadsAtTheStackPointer, RetPopsThePc, at `sp` = 254. -/
theorem witness_pop_ret : Names 6 6 ∧ (6 : RegIndex) ≠ 7 ∧ ((startAt 253 []).writeReg 7 254).pc.toNat ≤ 253 ∧
    ((startAt 253 []).writeReg 7 254).sp.toNat < 255 := ⟨rfl, by decide, by decide, by decide⟩
/-- PopIntoTheStackPointerIncrementsTheLoadedValue: the loaded value 254, with `sp` itself at 255. -/
theorem witness_pop_sp : Names 7 7 ∧ ((startAt 255 [254]).writeReg 7 255 |>.setPc 253).pc.toNat ≤ 253 ∧
    ((startAt 255 [254]).writeReg 7 255).mem.read 255 = 254 := ⟨rfl, by decide, by decide⟩
/-- JmpGoesToTheRegister: the highest register, from the highest address. -/
theorem witness_jmp : Names 7 7 ∧ seen (exec (.jmp 7) (startAt 255 [])) (fun t => t.pc) = some 0xF4 := ⟨rfl, by decide⟩
/-- InvalidRegisterComesFirst: 8 as `a`, 255 as `b`. -/
theorem witness_invalid_register : 7 < (8 : Byte).toNat ∧ (7 : Byte).toNat ≤ 7 ∧ 7 < (255 : Byte).toNat ∧
    Instr.jne 8 ∈ [Instr.ldi 8 0, .prn 8, .push 8, .pop 8, .call 8, .jmp 8, .jeq 8, .jne 8, .mul 8 0, .add 8 0, .cmp 8 0] ∧
    Instr.cmp 7 255 ∈ [Instr.mul 7 255, .add 7 255, .cmp 7 255] := by decide
/-- ThreeByteInstructionAt253Faults. -/
theorem witness_at_253 : (startAt 253 []).pc.toNat = 253 ∧ (Instr.ldi 7 255).wf = true ∧ (Instr.cmp 7 0).wf = true := by
  decide
/-- StackPointerEndsFault: its four clauses. -/
theorem witness_stack_ends : (7 : Byte).toNat ≤ 7 ∧ (State.reset.writeReg 7 0).sp.toNat = 0 ∧
    (6 : Byte).toNat < 7 ∧ (State.reset.writeReg 7 255).sp.toNat = 255 ∧
    (((startAt 0x20 [255]).writeReg 7 0x20).mem.read 0x20).toNat = 255 := by decide
/-- MemReadIsTheCellOrOutOfBounds, MemWriteChangesOnlyTheNamedCell, at the edges 0, 255, -1, 256. -/
theorem witness_primitives : State.reset.memRead 0 = .ok 0 ∧ State.reset.memRead 255 = .ok 0 ∧
    State.reset.memRead (-1) = .error (.outOfBounds (-1)) ∧
    (State.reset.memWrite 255 9).toOption.map (fun t => t.mem.read 255) = some 9 ∧
    (State.reset.memWrite 256 9).toOption.map (fun t => t.mem) = none := ⟨rfl, rfl, rfl, by decide, by decide⟩
/-- StackPointerOperationsDoNotWrap: the four values next to the ends. -/
theorem witness_sp_operations : 0 < (State.reset.writeReg 7 1).sp.toNat ∧ (State.reset.writeReg 7 0).sp.toNat = 0 ∧
    (State.reset.writeReg 7 254).sp.toNat < 255 ∧ (State.reset.writeReg 7 255).sp.toNat = 255 := by decide
/-- PushThenPopRestores: the last address two two-byte instructions fit, `sp` = 1 and 255. -/
theorem witness_push_pop : Names 7 7 ∧ ((startAt 251 []).writeReg 7 1).pc.toNat ≤ 251 ∧
    0 < ((startAt 251 []).writeReg 7 1).sp.toNat ∧ 0 < ((startAt 251 []).writeReg 7 255).sp.toNat :=
  ⟨rfl, by decide, by decide, by decide⟩
/-- LdiThenPrnEmitsTheValue: at the last address it fits, for R7. -/
theorem witness_ldi_prn : (startAt 250 [0x82, 7, 99, 0x47, 7]).status = .running ∧ Names 7 7 ∧
    (startAt 250 [0x82, 7, 99, 0x47, 7]).pc.toNat ≤ 250 ∧
    (startAt 250 [0x82, 7, 99, 0x47, 7]).mem.read 250 = 0x82 ∧ (startAt 250 [0x82, 7, 99, 0x47, 7]).mem.read 251 = 7 ∧
    (startAt 250 [0x82, 7, 99, 0x47, 7]).mem.read 252 = 99 ∧ (startAt 250 [0x82, 7, 99, 0x47, 7]).mem.read 253 = 0x47 ∧
    (startAt 250 [0x82, 7, 99, 0x47, 7]).mem.read 254 = 7 := ⟨rfl, rfl, by decide, rfl, rfl, rfl, rfl, rfl⟩
/-- NextFetchSeesThePush. -/
theorem witness_next_fetch : ((startAt 250 [0x45, 0]).writeReg 7 253).status = .running ∧
    ((startAt 250 [0x45, 0]).writeReg 7 253).At (.push 0) ∧ Names 0 0 ∧ (0 : RegIndex) ≠ 7 ∧
    ((startAt 250 [0x45, 0]).writeReg 7 253).sp.toNat = ((startAt 250 [0x45, 0]).writeReg 7 253).pc.toNat + 3 :=
  ⟨rfl, ⟨by decide, rfl⟩, rfl, by decide, by decide⟩
/-- JumpToSelfNeverReturns (V-CT16). -/
theorem witness_jump_to_self : (startAt 0 [0x54, 0]).status = .running ∧ (startAt 0 [0x54, 0]).At (.jmp 0) ∧
    Names 0 0 ∧ (startAt 0 [0x54, 0]).readReg 0 = (startAt 0 [0x54, 0]).pc := ⟨rfl, ⟨by decide, rfl⟩, rfl, by decide⟩
/-- RunReturnsOneState: a run that returns. -/
theorem witness_run_returns : RunReturns (startAt 0 [0x01]) ((startAt 0 [0x01]).setPc 1).halt := ⟨1, rfl, rfl, rfl⟩
/-- LoadPlacesTheImage: 1 and 256 entries, 0 and 257 entries, an entry of 256. -/
theorem witness_load : (∀ v ∈ [255], v ≤ 255) ∧ 1 ≤ (List.replicate 256 255).length ∧
    (List.replicate 256 255).length ≤ 256 ∧ ([] : List Nat).length = 0 ∧ 256 < (List.replicate 257 0).length ∧
    ∃ v ∈ [1, 256], 255 < v := 
  ⟨by decide, (by decide : 1 ≤ 256).trans_eq List.length_replicate.symm, le_of_eq List.length_replicate, rfl,
    lt_of_lt_of_eq (by decide : 256 < 257) List.length_replicate.symm, 256, by decide, by decide⟩
/-- LoadIsForTheResetState: a load that answers, and a state that is not the reset state. -/
theorem witness_load_once : (after (load [0x01] State.reset)).isSome = true ∧ State.reset.setPc 1 ≠ State.reset := by
  decide

end Sys2Proof.Tests
end

section
/-! PROOFS. FL is written only by CMP and read only by JEQ and JNE (10_state.md R18). The reading half is a commuting
diagram: whatever is computed from a state with `fl` replaced is what is computed from the state itself, with `fl`
replaced in the answer. It is shown for each operation, carried through `do` blocks by two bind rules, and so holds for
every instruction but CMP, whose answer does not depend on the old `fl` at all. -/

namespace Sys2Proof.Machine

/-! ### Writing FL -/

/-- Only CMP writes `fl`; a fault leaves it alone too. -/
theorem exec_keeps_fl {i : Instr} {s t : State} (h : exec i s = .next t) (hc : i.opcode ≠ .cmp) : t.fl = s.fl := by
  cases exec_effect h with
  | cmp => exact absurd rfl hc
  | _ => rfl

/-- A CMP that completes overwrites the whole byte with exactly one of L, G, E. -/
theorem exec_cmp_one_flag {ra rb : Byte} {s t : State} (h : exec (.cmp ra rb) s = .next t) (ht : t.fault = none) :
    t.fl = flagL ∨ t.fl = flagG ∨ t.fl = flagE := by
  cases exec_effect h with
  | raised k => simp at ht
  | cmp a b =>
    rcases compareFlags_cases (s.readReg a) (s.readReg b) with ⟨-, e⟩ | ⟨-, e⟩ | ⟨-, e⟩
    · exact .inl e
    · exact .inr (.inl e)
    · exact .inr (.inr e)

/-! ### Answers that carry `fl` along without reading it -/

/-- `r'` is the answer `r` with `fl` replaced by `f`: the same fault, or the same state but for `fl`. -/
def FlCarried (f : Byte) (r r' : Except FaultKind State) : Prop := r' = r.map (·.setFl f)

/-- An answer of `exec` with `fl` replaced in its next state. -/
def outcomeSetFl (f : Byte) : Host.Outcome State Fault Refusal → Host.Outcome State Fault Refusal
  | .next t => .next (t.setFl f)
  | .fault r => .fault r
  | .refused r => .refused r

/-- A value computed without `fl`, then a continuation that carries `fl`. -/
theorem FlCarried.bind_value {α : Type} {f : Byte} {x : Except FaultKind α} {g g' : α → Except FaultKind State}
    (hg : ∀ v, FlCarried f (g v) (g' v)) : FlCarried f (x >>= g) (x >>= g') := by
  cases x with
  | error k => rfl
  | ok v => exact hg v

/-- A state that carries `fl`, then a continuation that carries `fl`. -/
theorem FlCarried.bind_state {f : Byte} {x x' : Except FaultKind State} {g g' : State → Except FaultKind State}
    (hx : FlCarried f x x') (hg : ∀ u, FlCarried f (g u) (g' (u.setFl f))) : FlCarried f (x >>= g) (x' >>= g') := by
  cases hx
  cases x with
  | error k => rfl
  | ok u => exact hg u

/-- Both ends of a step carry `fl`: completion, and fault entry in the state with `fl` replaced. -/
theorem FlCarried.commit {f : Byte} {s : State} {r r' : Except FaultKind State} (h : FlCarried f r r') :
    (s.setFl f).commit r' = outcomeSetFl f (s.commit r) := by
  cases h
  cases r <;> rfl

/-! ### The shared operations -/

theorem State.spDec_flCarried (s : State) (f : Byte) : FlCarried f s.spDec (s.setFl f).spDec :=
  .bind_value fun _ => rfl

theorem State.spInc_flCarried (s : State) (f : Byte) : FlCarried f s.spInc (s.setFl f).spInc :=
  .bind_value fun _ => rfl

theorem State.memWrite_flCarried (s : State) (f : Byte) (n : Int) (v : Byte) :
    FlCarried f (s.memWrite n v) ((s.setFl f).memWrite n v) :=
  .bind_value fun _ => rfl

/-- Every ALU operation but CMP carries `fl`. -/
theorem aluApply_flCarried {op : AluOp} (ho : op ≠ .cmp) (a b : RegIndex) (s : State) (f : Byte) :
    FlCarried f (aluApply op a b s) (aluApply op a b (s.setFl f)) := by
  cases op with
  | cmp => exact absurd rfl ho
  | _ => rfl

theorem aluInstr_flCarried {op : AluOp} (ho : op ≠ .cmp) (ra rb : Byte) (s : State) (f : Byte) :
    FlCarried f (aluInstr op ra rb s) (aluInstr op ra rb (s.setFl f)) :=
  .bind_value fun a => .bind_value fun b => .bind_state (aluApply_flCarried ho a b s f) fun _ => .bind_value fun _ => rfl

/-- CMP overwrites the whole byte, so its answer does not depend on the old one. -/
theorem aluInstr_cmp_setFl (ra rb : Byte) (s : State) (f : Byte) :
    aluInstr .cmp ra rb (s.setFl f) = aluInstr .cmp ra rb s := rfl

/-- Once it is decided whether the branch is taken, `fl` plays no part. -/
theorem branchIf_flCarried (taken : Bool) (ra : Byte) (s : State) (f : Byte) :
    FlCarried f (branchIf taken ra s) (branchIf taken ra (s.setFl f)) := by
  refine .bind_value fun a => ?_
  cases taken with
  | true => rfl
  | false => exact .bind_value fun _ => rfl

/-! ### The instructions -/

theorem execPush_setFl (ra : Byte) (s : State) (f : Byte) :
    execPush ra (s.setFl f) = outcomeSetFl f (execPush ra s) :=
  FlCarried.commit <| .bind_value fun _ => .bind_state (s.spDec_flCarried f) fun u => .bind_value fun _ =>
    .bind_state (u.memWrite_flCarried f _ _) fun _ => rfl

theorem execPop_setFl (ra : Byte) (s : State) (f : Byte) :
    execPop ra (s.setFl f) = outcomeSetFl f (execPop ra s) :=
  FlCarried.commit <| .bind_value fun _ => .bind_value fun _ => .bind_state (State.spInc_flCarried _ f) fun _ =>
    .bind_value fun _ => rfl

theorem execCall_setFl (ra : Byte) (s : State) (f : Byte) :
    execCall ra (s.setFl f) = outcomeSetFl f (execCall ra s) :=
  FlCarried.commit <| .bind_value fun _ => .bind_state (s.spDec_flCarried f) fun u => .bind_value fun _ =>
    .bind_state (u.memWrite_flCarried f _ _) fun _ => rfl

theorem execRet_setFl (s : State) (f : Byte) : execRet (s.setFl f) = outcomeSetFl f (execRet s) :=
  FlCarried.commit <| .bind_value fun _ => .bind_state (s.spInc_flCarried f) fun _ => rfl

/-- JEQ reads E alone. -/
theorem execJeq_setFl (ra : Byte) {s : State} {f : Byte} (he : equalBit f = equalBit s.fl) :
    execJeq ra (s.setFl f) = outcomeSetFl f (execJeq ra s) := by
  rw [execJeq, execJeq, State.setFl_fl, he]
  exact (branchIf_flCarried _ ra s f).commit

/-- JNE reads E alone. -/
theorem execJne_setFl (ra : Byte) {s : State} {f : Byte} (he : equalBit f = equalBit s.fl) :
    execJne ra (s.setFl f) = outcomeSetFl f (execJne ra s) := by
  rw [execJne, execJne, State.setFl_fl, he]
  exact (branchIf_flCarried _ ra s f).commit

/-- Every instruction but CMP answers the same with `fl` replaced, `fl` alone excepted; JEQ and JNE where E agrees. -/
theorem exec_setFl {i : Instr} {s : State} {f : Byte} (hc : i.opcode ≠ .cmp)
    (he : i.opcode = .jeq ∨ i.opcode = .jne → equalBit f = equalBit s.fl) :
    exec i (s.setFl f) = outcomeSetFl f (exec i s) := by
  cases i with
  | hlt => exact FlCarried.commit <| .bind_value fun _ => rfl
  | ldi ra imm => exact FlCarried.commit <| .bind_value fun _ => .bind_value fun _ => rfl
  | prn ra => exact FlCarried.commit <| .bind_value fun _ => .bind_value fun _ => rfl
  | mul ra rb => exact (aluInstr_flCarried (by decide) ra rb s f).commit
  | add ra rb => exact (aluInstr_flCarried (by decide) ra rb s f).commit
  | push ra => exact execPush_setFl ra s f
  | pop ra => exact execPop_setFl ra s f
  | call ra => exact execCall_setFl ra s f
  | ret => exact execRet_setFl s f
  | cmp ra rb => exact absurd rfl hc
  | jmp ra => exact FlCarried.commit <| .bind_value fun _ => rfl
  | jeq ra => exact execJeq_setFl ra (he (.inl rfl))
  | jne ra => exact execJne_setFl ra (he (.inr rfl))

/-- CMP's two next states differ at most in `fl`: not at all where it completes. -/
theorem exec_cmp_setFl {ra rb : Byte} {s t t' : State} {f : Byte} (h : exec (.cmp ra rb) s = .next t)
    (h' : exec (.cmp ra rb) (s.setFl f) = .next t') : ∃ g, t' = t.setFl g := by
  rw [exec_cmp, execCmp] at h h'
  rw [aluInstr_cmp_setFl] at h'
  cases hr : aluInstr .cmp ra rb s with
  | ok u =>
    rw [hr] at h h'
    cases h
    cases h'
    exact ⟨t.fl, rfl⟩
  | error k =>
    rw [hr] at h h'
    cases h
    cases h'
    exact ⟨f, rfl⟩

/-- Replacing `fl` before an instruction (but E before JEQ and JNE) changes at most `fl` after it. -/
theorem exec_reads_only_equalBit {i : Instr} {s t t' : State} {f : Byte}
    (he : i.opcode = .jeq ∨ i.opcode = .jne → equalBit f = equalBit s.fl)
    (h : exec i s = .next t) (h' : exec i (s.setFl f) = .next t') : ∃ g, t' = t.setFl g := by
  by_cases hc : i.opcode = .cmp
  · cases i with
    | cmp ra rb => exact exec_cmp_setFl h h'
    | _ => simp [Instr.opcode] at hc
  · rw [exec_setFl hc he, h] at h'
    cases h'
    exact ⟨f, rfl⟩

/-! ### The branches after reset -/

/-- After reset E is 0, so JEQ falls through. -/
theorem exec_jeq_reset {ra : Byte} {a : RegIndex} (ha : Names ra a) :
    exec (.jeq ra) State.reset = .next (State.reset.setPc (State.reset.pc + 2)) :=
  execJeq_not ha (by decide) (by decide)

/-- After reset E is 0, so JNE jumps. -/
theorem exec_jne_reset {ra : Byte} {a : RegIndex} (ha : Names ra a) :
    exec (.jne ra) State.reset = .next (State.reset.setPc (State.reset.readReg a)) :=
  execJne_taken ha (by decide)

/-- Settles O21: writing by cases on `Effect`, reading by the commuting diagram with `setFl`, reset by computation. -/
theorem flIsWrittenOnlyByCmpAndReadOnlyByBranches : Obligations.FlIsWrittenOnlyByCmpAndReadOnlyByBranches := by
  unfold Obligations.FlIsWrittenOnlyByCmpAndReadOnlyByBranches
  refine ⟨fun i s t => exec_keeps_fl, fun ra rb s t _ => exec_cmp_one_flag, ?_, ?_⟩
  · intro i s t t' f he h h'
    obtain ⟨g, rfl⟩ := exec_reads_only_equalBit he h h'
    exact ⟨rfl, rfl, rfl, rfl, fun _ _ => rfl, fun _ => rfl⟩
  · intro ra a ha
    exact ⟨⟨_, exec_jeq_reset ha, by decide⟩, _, exec_jne_reset ha, rfl⟩

end Sys2Proof.Machine
end

section
/-! PROOFS. The memory primitives at an integer address (20_memory.md R32, R33): in 0..255 they are the cell operations
of `Memory`, outside they raise, and a read after a write tells the two addresses apart whether or not the read is in
range. -/

namespace Sys2Proof.Machine

/-! ### In range, at an integer address -/

/-- R32 in range. -/
theorem State.memRead_inRange (s : State) {n : Int} (h0 : 0 ≤ n) (h1 : n ≤ 255) :
    s.memRead n = .ok (s.mem.read n.toNat) := by
  obtain ⟨a, rfl⟩ := Int.eq_ofNat_of_zero_le h0
  exact s.memRead_nat (Int.ofNat_le.mp h1)

/-- R33 in range. -/
theorem State.memWrite_inRange (s : State) {n : Int} (h0 : 0 ≤ n) (h1 : n ≤ 255) (v : Byte) :
    s.memWrite n v = .ok (s.setMem (s.mem.write n.toNat v)) := by
  obtain ⟨a, rfl⟩ := Int.eq_ofNat_of_zero_le h0
  exact s.memWrite_nat (Int.ofNat_le.mp h1) v

/-! ### A read after a write -/

/-- The written address reads back the byte. -/
theorem State.memRead_after_write_self (s : State) {n : Int} (h0 : 0 ≤ n) (h1 : n ≤ 255) (v : Byte) :
    (s.setMem (s.mem.write n.toNat v)).memRead n = .ok v := by
  rw [State.memRead_inRange _ h0 h1, State.setMem_mem, Memory.read_write_self]

/-- Every other address answers as before: the same byte in range, the same fault outside. -/
theorem State.memRead_after_write_ne (s : State) {n m : Int} (h0 : 0 ≤ n) (hmn : m ≠ n) (v : Byte) :
    (s.setMem (s.mem.write n.toNat v)).memRead m = s.memRead m := by
  by_cases hm : 0 ≤ m ∧ m ≤ 255
  · have hne : m.toNat ≠ n.toNat := by omega
    rw [State.memRead_inRange _ hm.1 hm.2, State.memRead_inRange s hm.1 hm.2, State.setMem_mem,
      Memory.read_write_ne _ v hne]
  · rw [State.memRead_error _ hm, State.memRead_error s hm]

/-! ### The two statements -/

/-- Settles O43: in range the next state is `setMem` of the cell's write, out of range `narrow` raises. -/
theorem memWriteChangesOnlyTheNamedCell : Obligations.MemWriteChangesOnlyTheNamedCell := by
  unfold Obligations.MemWriteChangesOnlyTheNamedCell
  intro s n v
  constructor
  · intro h0 h1
    exact ⟨_, s.memWrite_inRange h0 h1 v, s.memRead_after_write_self h0 h1 v,
      fun m hmn => s.memRead_after_write_ne h0 hmn v, fun a ha => s.mem.read_write_ne v ha,
      rfl, rfl, rfl, ⟨rfl, rfl⟩, fun _ _ => rfl⟩
  · intro hout
    exact s.memWrite_error v (by omega)

/-- Settles O42: the two specification lemmas of `memRead`, in range and out of range. -/
theorem memReadIsTheCellOrOutOfBounds : Obligations.MemReadIsTheCellOrOutOfBounds := by
  unfold Obligations.MemReadIsTheCellOrOutOfBounds
  intro s n
  exact ⟨s.memRead_inRange, fun hout => s.memRead_error (by omega)⟩

end Sys2Proof.Machine
end

section
/-! PROOFS. The decoder is an exact match (30_encoding.md R53): distinct opcode values make the matching row unique, and
the row's format says how many operand bytes the assembled instruction keeps. -/

namespace Sys2Proof

/-! ### The instruction of a row -/

/-- The assembled instruction belongs to its row. -/
@[simp] theorem opcode_assemble (o : Opcode) (a b : Byte) : (assemble o a b).opcode = o := by
  cases o <;> rfl

/-- The assembled instruction keeps as many operand bytes as its row counts, in order (R50). -/
@[simp] theorem operands_assemble (o : Opcode) (a b : Byte) :
    (assemble o a b).operands = [a, b].take (operandCount o) := by
  cases o <;> rfl

/-! ### The match under distinct opcode values -/

/-- Distinct opcode values name distinct rows (R6). -/
theorem Opcodes.Distinct.value_injective {t : Opcodes} (ht : t.Distinct) : Function.Injective t.value :=
  fun o p h => List.inj_on_of_nodup_map ht o.mem_all p.mem_all h

/-- A row's own opcode value matches that row, and with distinct values no other. -/
theorem decodeOpcodeWith_value {t : Opcodes} (ht : t.Distinct) (o : Opcode) :
    decodeOpcodeWith t (t.value o) = some (o, operandCount o) := by
  cases h : decodeOpcodeWith t (t.value o) with
  | none => exact absurd rfl (decodeOpcodeWith_none.mp h o)
  | some row =>
    obtain ⟨p, n⟩ := row
    obtain ⟨hp, rfl⟩ := decodeOpcodeWith_some h
    rw [ht.value_injective hp]

/-- The fetched bytes of a row's opcode decode to the row's instruction. -/
theorem decodeWith_value {t : Opcodes} (ht : t.Distinct) (o : Opcode) (a b : Byte) :
    decodeWith t (t.value o) a b = .ok (assemble o a b) := by
  rw [decodeWith, decodeOpcodeWith_value ht]

/-- Settles O7: the match is unique by injectivity of the opcode values; no match is the decoder's only error. -/
theorem decodeIsExactMatch : Obligations.DecodeIsExactMatch := by
  unfold Obligations.DecodeIsExactMatch
  intro ops ir a b hd
  constructor
  · rintro o rfl
    exact ⟨decodeOpcodeWith_value hd o, assemble o a b, decodeWith_value hd o a b,
      opcode_assemble o a b, operands_assemble o a b⟩
  · intro hu
    exact ⟨decodeOpcodeWith_none.mpr hu, decodeWith_error_iff.mpr ⟨rfl, hu⟩⟩

end Sys2Proof
end

section
/-! PROOFS. Fetch, decode, execute as one step (40_cycle_and_system.md R72): what the decoder answers for the fetched
opcode byte is what the step does. -/

namespace Sys2Proof.Machine

/-- Under distinct opcode values the step runs the row whose value stands at `pc`, with the fetched operand bytes. -/
theorem stepWith_value {ops : Opcodes} {s : State} (hd : ops.Distinct) (hr : s.status = .running)
    (hpc : s.pc.toNat ≤ 253) {o : Opcode} (ho : ops.value o = s.mem.read s.pc.toNat) :
    stepWith ops s = exec (assemble o (s.mem.read (s.pc.toNat + 1)) (s.mem.read (s.pc.toNat + 2))) s :=
  stepWith_exec hr hpc (ho ▸ decodeWith_value hd o _ _)

/-- Settles O12: a match is the step of its assembled row; without one the step is the fault entry, which keeps `pc`. -/
theorem stepMatchesTheOpcodeOrRaisesUnknownOpcode : Obligations.StepMatchesTheOpcodeOrRaisesUnknownOpcode := by
  unfold Obligations.StepMatchesTheOpcodeOrRaisesUnknownOpcode
  intro ops s hd hr hpc
  constructor
  · intro o ho
    exact ⟨_, opcode_assemble o _ _, operands_assemble o _ _, stepWith_value hd hr hpc ho⟩
  · intro hu
    exact ⟨_, stepWith_unknown hr hpc hu, State.raise_status _ _, State.raise_fault _ _, State.raise_pc _ _⟩

end Sys2Proof.Machine
end

section
/-! PROOFS. The ALU's arithmetic and its comparison (42_alu.md R96, R99). Every integer a byte stands for, its unsigned
number and its two's-complement number alike, is a preimage of it under `BitVec.ofInt 8`, which commutes with sum,
difference and product; so both readings give the byte `aluApply` writes. -/

namespace Sys2Proof.Machine

/-! ### The byte of an integer -/

/-- A byte is the byte of its unsigned number. -/
theorem ofInt_toNat (x : Byte) : BitVec.ofInt 8 x.toNat = x := by
  rw [BitVec.ofInt_natCast, BitVec.ofNat_toNat, BitVec.setWidth_eq]

theorem ofInt_sub (m n : Int) : BitVec.ofInt 8 (m - n) = BitVec.ofInt 8 m - BitVec.ofInt 8 n := by
  rw [Int.sub_eq_add_neg, BitVec.ofInt_add, BitVec.ofInt_neg, BitVec.sub_eq_add_neg]

/-- The unsigned number of an integer's byte is its non-negative remainder. -/
theorem toNat_ofInt_eq_emod (n : Int) : ((BitVec.ofInt 8 n).toNat : Int) = n % 256 := by
  rw [BitVec.toNat_ofInt]
  omega

/-! ### Unsigned arithmetic modulo 256 -/

theorem toNat_add_eq_emod (x y : Byte) : ((x + y).toNat : Int) = ((x.toNat : Int) + y.toNat) % 256 := by
  rw [← toNat_ofInt_eq_emod, BitVec.ofInt_add, ofInt_toNat, ofInt_toNat]

theorem toNat_sub_eq_emod (x y : Byte) : ((x - y).toNat : Int) = ((x.toNat : Int) - y.toNat) % 256 := by
  rw [← toNat_ofInt_eq_emod, ofInt_sub, ofInt_toNat, ofInt_toNat]

theorem toNat_mul_eq_emod (x y : Byte) : ((x * y).toNat : Int) = ((x.toNat : Int) * y.toNat) % 256 := by
  rw [← toNat_ofInt_eq_emod, BitVec.ofInt_mul, ofInt_toNat, ofInt_toNat]

/-! ### Two's-complement arithmetic -/

theorem add_eq_ofInt_toInt (x y : Byte) : x + y = BitVec.ofInt 8 (x.toInt + y.toInt) := by
  rw [BitVec.ofInt_add, BitVec.ofInt_toInt, BitVec.ofInt_toInt]

theorem sub_eq_ofInt_toInt (x y : Byte) : x - y = BitVec.ofInt 8 (x.toInt - y.toInt) := by
  rw [ofInt_sub, BitVec.ofInt_toInt, BitVec.ofInt_toInt]

theorem mul_eq_ofInt_toInt (x y : Byte) : x * y = BitVec.ofInt 8 (x.toInt * y.toInt) := by
  rw [BitVec.ofInt_mul, BitVec.ofInt_toInt, BitVec.ofInt_toInt]

/-! ### The frame of a register write -/

/-- Writing a register leaves every other register and every other piece of state as it was. -/
theorem State.writeReg_frame (s : State) (a : RegIndex) (v : Byte) :
    SameRegsBut [a] s (s.writeReg a v) ∧ SameMem s (s.writeReg a v) ∧ (s.writeReg a v).fl = s.fl ∧
      (s.writeReg a v).pc = s.pc ∧ (s.writeReg a v).out = s.out ∧ SameRun s (s.writeReg a v) :=
  ⟨fun _ hr => s.readReg_writeReg_ne v (List.ne_of_not_mem_cons hr), fun _ => rfl, rfl, rfl, rfl, rfl, rfl⟩

/-! ### The two statements -/

/-- Settles O45: each answer is one register write, its byte is the byte of both integer results. -/
theorem aluArithmeticWrapsModulo256 : Obligations.AluArithmeticWrapsModulo256 := by
  unfold Obligations.AluArithmeticWrapsModulo256
  intro a b s
  refine ⟨_, _, _, rfl, rfl, rfl, ?_⟩
  simp only [State.readReg_writeReg_self]
  refine ⟨toNat_add_eq_emod _ _, toNat_sub_eq_emod _ _, toNat_mul_eq_emod _ _,
    add_eq_ofInt_toInt _ _, sub_eq_ofInt_toInt _ _, mul_eq_ofInt_toInt _ _, ?_⟩
  simp only [List.forall_mem_cons]
  exact ⟨s.writeReg_frame a _, s.writeReg_frame a _, s.writeReg_frame a _, List.forall_mem_nil _⟩

/-- Settles O46: bit 0 of the byte CMP writes decides equality (`equalBit_compareFlags`). -/
theorem equalIsSetOnlyWhenEqual : Obligations.EqualIsSetOnlyWhenEqual := by
  unfold Obligations.EqualIsSetOnlyWhenEqual
  intro a b s
  refine ⟨_, rfl, ?_⟩
  rw [← equalBit, State.setFl_fl, equalBit_compareFlags, decide_eq_true_iff]

end Sys2Proof.Machine
end

section
/-! PROOFS. The clean halt (60_exceptions.md R152). Only HLT halts a running machine without recording a fault: a fault
entry records its reason, and every other completion leaves `status` as it was. -/

namespace Sys2Proof.Machine

/-- A recorded fault is no clean halt. -/
theorem State.not_cleanHalt_raise (s : State) (k : FaultKind) : ¬ (s.raise k).CleanHalt :=
  fun h => Option.some_ne_none k h.2

/-- From Running, no completion but HLT's reaches a clean halt. -/
theorem Effect.eq_hlt_of_cleanHalt {i : Instr} {s t : State} (h : Effect i s t) (hr : s.status = .running)
    (hc : t.CleanHalt) : i = .hlt := by
  cases h with
  | raised k => exact absurd hc (s.not_cleanHalt_raise k)
  | hlt => rfl
  | _ =>
    have hh : s.status = .halted := hc.1
    rw [hr] at hh
    cases hh

/-- A step that ends in a clean halt ran HLT. -/
theorem at_hlt_of_step_cleanHalt {s t : State} (h : step s = .next t) (hc : t.CleanHalt) : s.At .hlt := by
  rw [step] at h
  rcases stepWith_cases standardOpcodes s with ⟨-, e⟩ | ⟨-, k, -, e⟩ | ⟨hr, hpc, i, hd, e⟩ <;> rw [e] at h
  · cases h
  · cases h
    exact absurd hc (s.not_cleanHalt_raise k)
  · cases (exec_effect h).eq_hlt_of_cleanHalt hr hc
    exact ⟨hpc, hd⟩

/-- The step at an HLT: `pc + 1` and Halted, nothing else (R80). -/
theorem step_of_at_hlt {s : State} (hr : s.status = .running) (ha : s.At .hlt) :
    step s = .next (s.setPc (s.pc + 1)).halt := by
  obtain ⟨hpc, hd⟩ := ha
  rw [step, stepWith_exec hr hpc hd, exec_hlt, execHlt_completes (by omega)]

/-- Settles O19: a clean halt comes from HLT by cases on the step and on `Effect`; HLT's next state is a clean halt
because it keeps `fault`. -/
theorem cleanHaltOnlyByHlt : Obligations.CleanHaltOnlyByHlt := by
  unfold Obligations.CleanHaltOnlyByHlt
  intro s t hr hf h
  constructor
  · exact at_hlt_of_step_cleanHalt h
  · intro ha
    rw [step_of_at_hlt hr ha] at h
    cases h
    exact ⟨rfl, hf⟩

end Sys2Proof.Machine
end

section
/-! PROOFS. The machine right after reset (70_reset_and_hazards.md R171), the memory and the register file read through
their own operations. -/

namespace Sys2Proof.Machine

/-- No address is listed at reset, so every read inside memory gives the unlisted value. -/
theorem State.memRead_reset {a : Nat} (h : a ≤ 255) : State.reset.memRead (a : Int) = .ok 0x00 := by
  have hlisted : ∀ c ∈ State.reset.mem, c.1 ≠ a := fun _ hc => absurd hc List.not_mem_nil
  rw [State.memRead_nat _ h, Memory.read_eq_unlisted hlisted, Memory.unlisted]

/-- At reset only the stack pointer's register is not zero (R26). -/
theorem State.readReg_reset (r : RegIndex) : State.reset.readReg r = if r = spIndex then 0xF4 else 0x00 := by
  revert r
  decide

/-- The stack pointer starts at 0xF4, through its name for register 7 (R13). -/
theorem State.sp_reset : State.reset.sp = 0xF4 := by
  rw [State.sp, State.readReg_reset, if_pos rfl]

/-- Settles O1: memory because nothing is listed, the registers by their one case split; the other fields are the
values written in `State.reset`. -/
theorem resetLeavesTheStatedValues : Obligations.ResetLeavesTheStatedValues := by
  unfold Obligations.ResetLeavesTheStatedValues
  have hzero : ∀ r : RegIndex, r ≠ 7 → State.reset.readReg r = 0x00 := fun r hr =>
    (State.readReg_reset r).trans (if_neg hr)
  exact ⟨fun _ => State.memRead_reset, hzero, State.sp_reset, State.sp_reset, rfl, rfl, rfl, rfl, rfl⟩

end Sys2Proof.Machine
end

section
/-! PROOFS. Every step keeps the state invariant (20_memory.md R30, 10_state.md R17, 60_exceptions.md R148). Each update
of the state keeps it; a completion is a composition of such updates, and so is fault entry. What a step can end in is
said once (`step_next_cases`) and serves the statements about faults and output too. -/

namespace Sys2Proof.Machine

/-! ### The updates keep the invariant -/

theorem State.Inv.writeReg {s : State} (h : s.Inv) (i : RegIndex) (v : Byte) : (s.writeReg i v).Inv := h

theorem State.Inv.setPc {s : State} (h : s.Inv) (v : Byte) : (s.setPc v).Inv := h

theorem State.Inv.emit {s : State} (h : s.Inv) (v : Byte) : (s.emit v).Inv := h

theorem State.Inv.halt {s : State} (h : s.Inv) : s.halt.Inv := ⟨h.1, h.2.1, fun _ => rfl⟩

theorem State.Inv.raise {s : State} (h : s.Inv) (k : FaultKind) : (s.raise k).Inv := ⟨h.1, h.2.1, fun _ => rfl⟩

/-- A legal value of `fl` may be written. -/
theorem State.Inv.setFl {s : State} (h : s.Inv) {v : Byte} (hv : flLegal v = true) : (s.setFl v).Inv :=
  ⟨h.1, hv, h.2.2⟩

/-- Any canonical memory may be put in. -/
theorem State.Inv.setMem {s : State} (h : s.Inv) {m : Memory} (hm : m.wf = true) : (s.setMem m).Inv :=
  ⟨hm, h.2⟩

/-- A write at a byte's address keeps the canonical form. -/
theorem Memory.wf_write_byte {m : Memory} (h : m.wf = true) (a v : Byte) : (m.write a.toNat v).wf = true :=
  Memory.wf_write h a.isLt v

/-- CMP writes one of the four values `fl` can hold. -/
theorem flLegal_compareFlags (x y : Byte) : flLegal (compareFlags x y) = true := by
  rcases compareFlags_cases x y with ⟨-, e⟩ | ⟨-, e⟩ | ⟨-, e⟩ <;> rw [e] <;> decide

/-! ### Instructions and steps -/

/-- Every end of an instruction keeps the invariant. -/
theorem Effect.keeps_inv {i : Instr} {s t : State} (h : Effect i s t) (hi : s.Inv) : t.Inv := by
  cases h with
  | raised k => exact hi.raise k
  | hlt => exact (hi.setPc _).halt
  | ldi imm a => exact (hi.writeReg a imm).setPc _
  | prn a => exact (hi.emit _).setPc _
  | mul a b => exact (hi.writeReg a _).setPc _
  | add a b => exact (hi.writeReg a _).setPc _
  | push a => exact ((hi.writeReg spIndex _).setMem (Memory.wf_write_byte hi.1 _ _)).setPc _
  | pop a => exact ((hi.writeReg a _).writeReg spIndex _).setPc _
  | call a => exact ((hi.writeReg spIndex _).setMem (Memory.wf_write_byte hi.1 _ _)).setPc _
  | ret => exact (hi.writeReg spIndex _).setPc _
  | cmp a b => exact (hi.setFl (flLegal_compareFlags _ _)).setPc _
  | jmp a => exact hi.setPc _
  | jeqTaken a => exact hi.setPc _
  | jeqNot a => exact hi.setPc _
  | jneTaken a => exact hi.setPc _
  | jneNot a => exact hi.setPc _

/-- Everything a step that answers can have done: fault entry at fetch or decode, or an end of the instruction at `pc`. -/
theorem step_next_cases {s t : State} (h : step s = .next t) :
    s.status = .running ∧ ((∃ k, k ≠ .unsupportedOperation ∧ t = s.raise k) ∨ ∃ i, s.At i ∧ Effect i s t) := by
  rw [step] at h
  rcases stepWith_cases standardOpcodes s with ⟨-, e⟩ | ⟨hr, k, hk, e⟩ | ⟨hr, hpc, i, hd, e⟩ <;> rw [e] at h
  · cases h
  · cases h
    exact ⟨hr, .inl ⟨k, hk, rfl⟩⟩
  · exact ⟨hr, .inr ⟨i, ⟨hpc, hd⟩, exec_effect h⟩⟩

/-- Settles O3: by the cases of a step, fault entry or an end of the instruction, each of which keeps the invariant. -/
theorem stepKeepsTheInvariant : Obligations.StepKeepsTheInvariant := by
  unfold Obligations.StepKeepsTheInvariant
  intro s t hi h
  obtain ⟨-, ⟨k, -, rfl⟩ | ⟨i, -, he⟩⟩ := step_next_cases h
  · exact hi.raise k
  · exact he.keeps_inv hi

/-- Settles O2: nothing is listed, `fl` is 0x00, no fault is recorded. -/
theorem resetMeetsTheInvariant : Obligations.ResetMeetsTheInvariant := by
  unfold Obligations.ResetMeetsTheInvariant
  exact ⟨Memory.wf_nil, by decide, fun hf => absurd rfl hf⟩

end Sys2Proof.Machine
end

section
/-! PROOFS. Runs of bounded length (40_cycle_and_system.md R75): they always answer, they compose, a halted machine stays
as it is, and what every step keeps every run keeps. -/

namespace Sys2Proof.Machine

/-! ### Every running step answers -/

/-- However a step of an instruction ends, it ends in a next state. -/
theorem State.commit_answers (s : State) (r : Except FaultKind State) : ∃ t, s.commit r = .next t := by
  cases r with
  | ok t => exact ⟨t, rfl⟩
  | error k => exact ⟨s.raise k, rfl⟩

/-- Every arm of `exec` is written with `commit`. -/
theorem exec_answers (i : Instr) (s : State) : ∃ t, exec i s = .next t := by
  cases i <;> exact s.commit_answers _

theorem stepWith_answers (ops : Opcodes) {s : State} (hr : s.status = .running) : ∃ t, stepWith ops s = .next t := by
  rcases stepWith_cases ops s with ⟨hh, -⟩ | ⟨-, k, -, e⟩ | ⟨-, -, i, -, e⟩
  · rw [hr] at hh
    cases hh
  · exact ⟨_, e⟩
  · exact e ▸ exec_answers i s

/-- Settles O16: `exec` because every arm ends in `commit`, the step by its cases. -/
theorem everyRunningStepAnswers : Obligations.EveryRunningStepAnswers := by
  unfold Obligations.EveryRunningStepAnswers
  exact ⟨exec_answers, fun ops _ => stepWith_answers ops⟩

/-! ### runFor -/

/-- A halted machine is left as it is. -/
theorem runFor_halted {s : State} (h : s.status = .halted) (n : Nat) : runFor n s = .next s := by
  cases n with
  | zero => rfl
  | succ n => simp [runFor, h]

/-- A run begins with one step. -/
theorem runFor_succ {s t : State} (hr : s.status = .running) (h : step s = .next t) (n : Nat) :
    runFor (n + 1) s = runFor n t := by
  simp [runFor, hr, h]

/-- A run answers, and what every step keeps it keeps. -/
theorem runFor_answers {P : State → Prop} (hP : ∀ s t, P s → step s = .next t → P t) (n : Nat) (s : State) :
    ∃ t, runFor n s = .next t ∧ (P s → P t) := by
  induction n generalizing s with
  | zero => exact ⟨s, rfl, id⟩
  | succ n ih =>
    cases hs : s.status with
    | halted => exact ⟨s, runFor_halted hs _, id⟩
    | running =>
      obtain ⟨u, hu⟩ := stepWith_answers standardOpcodes hs
      obtain ⟨t, ht, hut⟩ := ih u
      exact ⟨t, (runFor_succ hs hu n).trans ht, fun hp => hut (hP s u hp hu)⟩

/-- A run can be cut in two at any point. -/
theorem runFor_add {s t : State} {n : Nat} (h : runFor n s = .next t) (k : Nat) : runFor (n + k) s = runFor k t := by
  induction n generalizing s with
  | zero =>
    cases h
    rw [Nat.zero_add]
  | succ n ih =>
    cases hs : s.status with
    | halted =>
      rw [runFor_halted hs] at h
      cases h
      rw [runFor_halted hs, runFor_halted hs]
    | running =>
      obtain ⟨u, hu⟩ := stepWith_answers standardOpcodes hs
      rw [runFor_succ hs hu] at h
      rw [Nat.succ_add, runFor_succ hs hu, ih h]

/-- Once a run has halted, every longer one ends in the same state. -/
theorem runFor_of_le {s t : State} {n m : Nat} (h : runFor n s = .next t) (hh : t.status = .halted) (hnm : n ≤ m) :
    runFor m s = .next t := by
  obtain ⟨k, rfl⟩ := Nat.exists_eq_add_of_le hnm
  rw [runFor_add h, runFor_halted hh]

/-- Settles O4: the invariant is kept by every step (`stepKeepsTheInvariant`), so by every run. -/
theorem runAlwaysAnswersAndKeepsTheInvariant : Obligations.RunAlwaysAnswersAndKeepsTheInvariant := by
  unfold Obligations.RunAlwaysAnswersAndKeepsTheInvariant
  exact runFor_answers stepKeepsTheInvariant

/-- Settles O15: the step's first case, and the run's. -/
theorem haltedHasNoStep : Obligations.HaltedHasNoStep := by
  unfold Obligations.HaltedHasNoStep
  exact fun ops s hh => ⟨stepWith_halted hh, runFor_halted hh⟩

/-- Settles O52: the longer of two runs that return ends in the state of each. -/
theorem runReturnsOneState : Obligations.RunReturnsOneState := by
  unfold Obligations.RunReturnsOneState
  rintro s t ⟨n, -, ht, hht⟩
  refine ⟨?_, n, fun m => runFor_of_le ht hht⟩
  rintro u ⟨m, -, hu, hhu⟩
  have htu : Host.Outcome.next t = .next u :=
    (runFor_of_le ht hht (Nat.le_max_left n m)).symm.trans (runFor_of_le hu hhu (Nat.le_max_right n m))
  cases htu
  rfl

end Sys2Proof.Machine
end

section
/-! PROOFS. What a faulting step leaves (60_exceptions.md R148, R151): fault entry touches `status` and `fault` alone, no
completion records a fault, and a recorded one is final. -/

namespace Sys2Proof.Machine

/-- Fault entry changes nothing but `status` and `fault`. -/
theorem State.raised_raise (s : State) (k : FaultKind) : Raised k s (s.raise k) :=
  ⟨rfl, rfl, rfl, rfl, rfl, fun _ _ => rfl, fun _ => rfl⟩

/-- An end of an instruction is fault entry, or it leaves the fault record alone. -/
theorem Effect.raise_or_keeps_fault {i : Instr} {s t : State} (h : Effect i s t) :
    (∃ k, k ≠ .unsupportedOperation ∧ t = s.raise k) ∨ t.fault = s.fault := by
  cases h with
  | raised k hk => exact .inl ⟨k, hk, rfl⟩
  | _ => exact .inr rfl

/-- A step that records a fault is fault entry, and never for an unsupported operation. -/
theorem step_fault {s t : State} {k : FaultKind} (hf : s.fault = none) (h : step s = .next t) (hk : t.fault = some k) :
    k ≠ .unsupportedOperation ∧ t = s.raise k := by
  have hcases : (∃ j, j ≠ .unsupportedOperation ∧ t = s.raise j) ∨ t.fault = s.fault := by
    obtain ⟨-, hr | ⟨i, -, he⟩⟩ := step_next_cases h
    · exact .inl hr
    · exact he.raise_or_keeps_fault
  obtain ⟨j, hj, rfl⟩ | hkeep := hcases
  · cases hk
    exact ⟨hj, rfl⟩
  · rw [hkeep, hf] at hk
    cases hk

/-- Settles O17: such a step is fault entry. -/
theorem faultsArePrecise : Obligations.FaultsArePrecise := by
  unfold Obligations.FaultsArePrecise
  intro s t k hf h hk
  obtain ⟨-, rfl⟩ := step_fault hf h hk
  exact s.raised_raise k

/-- Settles O18: by the invariant the machine is Halted, so it takes no step and every run leaves it as it is. -/
theorem faultIsWrittenAtMostOnce : Obligations.FaultIsWrittenAtMostOnce := by
  unfold Obligations.FaultIsWrittenAtMostOnce
  rintro s k ⟨-, -, hfault⟩ hk
  have hh : s.status = .halted := hfault (hk ▸ Option.some_ne_none k)
  constructor
  · intro t h
    rw [step, stepWith_halted hh] at h
    cases h
  · intro n t h
    rw [runFor_halted hh] at h
    cases h
    exact hk

/-- Settles O20: the ALU by its five operations; the step because it enters a fault only for another reason. -/
theorem unsupportedOperationIsOnlyTheAlus : Obligations.UnsupportedOperationIsOnlyTheAlus := by
  unfold Obligations.UnsupportedOperationIsOnlyTheAlus
  constructor
  · intro a b s op
    cases op <;> simp [aluApply]
  · intro s t hf h hk
    exact (step_fault hf h hk).1 rfl

/-- Settles O13: the fetch faults before anything is decoded. -/
theorem fetchAtTheTopFaults : Obligations.FetchAtTheTopFaults := by
  unfold Obligations.FetchAtTheTopFaults
  exact fun ops s hr hpc => ⟨_, stepWith_fetch_fault hr hpc, s.raised_raise _⟩

/-- Settles O14: 0x00 is none of the thirteen default values. -/
theorem zeroedMemoryIsNoInstruction : Obligations.ZeroedMemoryIsNoInstruction := by
  unfold Obligations.ZeroedMemoryIsNoInstruction
  intro s hr hpc h0
  have hnone : ∀ o, standardOpcodes.value o ≠ 0x00 := by
    intro o
    cases o <;> decide
  refine ⟨_, ?_, s.raised_raise _⟩
  rw [step, stepWith_unknown hr hpc (h0 ▸ hnone), h0]

end Sys2Proof.Machine
end

section
/-! PROOFS. The encoder is inverted by the decoder (30_encoding.md R50, R53, R59): the opcode byte finds the row, and the
row's format keeps exactly the operand bytes that the encoding wrote and ignores the others. -/

namespace Sys2Proof

/-! ### The operand bytes of a row -/

/-- An instruction is assembled again from its row and any two bytes that agree with its operands where it has them. -/
theorem assemble_of_operands {i : Instr} {a b : Byte} (ha : ∀ v, i.operands[0]? = some v → v = a)
    (hb : ∀ v, i.operands[1]? = some v → v = b) : assemble i.opcode a b = i := by
  have h0 : i.operands[0]?.getD a = a := by
    cases h : i.operands[0]? with
    | none => rfl
    | some v => exact ha v h
  have h1 : i.operands[1]?.getD b = b := by
    cases h : i.operands[1]? with
    | none => rfl
    | some v => exact hb v h
  rw [← h0, ← h1]
  cases i <;> rfl

/-- With distinct opcode values the bytes of an instruction decode to it. -/
theorem decodeWith_encoded {ops : Opcodes} (hd : ops.Distinct) {i : Instr} {a b : Byte}
    (ha : ∀ v, i.operands[0]? = some v → v = a) (hb : ∀ v, i.operands[1]? = some v → v = b) :
    decodeWith ops (ops.value i.opcode) a b = .ok i := by
  rw [decodeWith_value hd, assemble_of_operands ha hb]

/-- An entry of a list is an entry of every longer one. -/
theorem eq_of_getElem?_append {l after : List Byte} {k : Nat} {v w : Byte} (h : (l ++ after)[k]? = some w)
    (hv : l[k]? = some v) : v = w := by
  obtain ⟨hk, -⟩ := List.getElem?_eq_some_iff.mp hv
  rw [List.getElem?_append_left hk, hv] at h
  exact Option.some.inj h

/-- Settles O5: the first byte is the row's value, the next two agree with the operands where there are any. -/
theorem decodeOfEncodeIsTheInstruction : Obligations.DecodeOfEncodeIsTheInstruction := by
  unfold Obligations.DecodeOfEncodeIsTheInstruction
  intro ops i after ir a b hd hir ha hb
  have h0 : ops.value i.opcode = ir := Option.some.inj hir
  subst h0
  exact decodeWith_encoded hd (fun _ hv => eq_of_getElem?_append ha hv) fun _ hv => eq_of_getElem?_append hb hv

/-! ### Bytes the format does not use -/

/-- The row is found by the opcode byte alone. -/
theorem decodeWith_other_operands {ops : Opcodes} {ir a b : Byte} {i : Instr} (h : decodeWith ops ir a b = .ok i)
    (a' b' : Byte) : decodeWith ops ir a' b' = .ok (assemble i.opcode a' b') := by
  rw [decodeWith] at h ⊢
  cases hrow : decodeOpcodeWith ops ir with
  | none =>
    rw [hrow] at h
    cases h
  | some row =>
    rw [hrow] at h
    cases h
    rw [opcode_assemble]

/-- A row without operands ignores both bytes. -/
theorem assemble_of_no_operand {o : Opcode} (h : operandCount o = 0) (a b a' b' : Byte) :
    assemble o a' b' = assemble o a b := by
  cases o with
  | hlt | ret => rfl
  | _ => cases h

/-- A row with one operand ignores the second byte. -/
theorem assemble_of_one_operand {o : Opcode} (h : operandCount o = 1) (a b b' : Byte) :
    assemble o a b' = assemble o a b := by
  cases o with
  | ldi | mul | add | cmp => cases h
  | _ => rfl

/-- Settles O9: the row does not depend on the operand bytes, and its format says which of them it keeps. -/
theorem unusedOperandBytesAreIgnored : Obligations.UnusedOperandBytesAreIgnored := by
  unfold Obligations.UnusedOperandBytesAreIgnored
  intro ops ir a b a' b' i h
  have hi : assemble i.opcode a b = i := by
    obtain ⟨o, -, rfl⟩ := decodeWith_ok h
    rw [opcode_assemble]
  constructor
  · intro h0
    rw [decodeWith_other_operands h, assemble_of_no_operand h0 a b, hi]
  · intro h1
    rw [decodeWith_other_operands h, assemble_of_one_operand h1 a b, hi]

/-! ### The default values -/

theorem Opcode.nodup_all : Opcode.all.Nodup := by decide

/-- Settles O6: each word by running the decoder on it. -/
theorem specWordsDecode : Obligations.SpecWordsDecode := by
  unfold Obligations.SpecWordsDecode
  exact ⟨by decide, rfl, rfl, rfl, rfl, rfl, rfl, rfl, rfl, rfl, rfl, rfl⟩

/-- The default values are the thirteen bytes of the table (R54). -/
theorem value_standardOpcodes_mem (o : Opcode) : standardOpcodes.value o ∈
    ([0x01, 0x82, 0x47, 0xA2, 0xA0, 0x45, 0x46, 0x50, 0x11, 0xA7, 0x54, 0x55, 0x56] : List Byte) := by
  cases o <;> decide

/-- The opcode bytes of a table, as numbers. -/
def Opcodes.codes (t : Opcodes) : List Nat := Opcode.all.map fun o => (t.value o).toNat

theorem Opcodes.mem_codes {t : Opcodes} {n : Nat} : n ∈ t.codes ↔ ∃ o, (t.value o).toNat = n := by
  simp [Opcodes.codes, Opcode.mem_all]

/-- Distinct values are distinct numbers. -/
theorem Opcodes.Distinct.codes_nodup {t : Opcodes} (hd : t.Distinct) : t.codes.Nodup :=
  Opcode.nodup_all.map (BitVec.toNat_injective.comp hd.value_injective)

/-- A byte is illegal exactly when it is none of the table's numbers. -/
theorem isNone_decodeOpcodeWith {t : Opcodes} {n : Nat} (hn : n < 256) :
    (decodeOpcodeWith t (BitVec.ofNat 8 n)).isNone = !decide (n ∈ t.codes) := by
  have hval (o : Opcode) : t.value o = BitVec.ofNat 8 n ↔ (t.value o).toNat = n := by
    rw [← BitVec.toNat_inj, BitVec.toNat_ofNat, Nat.mod_eq_of_lt hn]
  rw [Bool.eq_iff_iff, Option.isNone_iff_eq_none, decodeOpcodeWith_none]
  simp [Opcodes.mem_codes, hval]

/-- Thirteen distinct opcode values leave 243 of the 256 bytes. -/
theorem length_illegal_bytes {t : Opcodes} (hd : t.Distinct) :
    ((List.range 256).filter fun n => (decodeOpcodeWith t (BitVec.ofNat 8 n)).isNone).length = 243 := by
  have hillegal : ((List.range 256).filter fun n => (decodeOpcodeWith t (BitVec.ofNat 8 n)).isNone) =
      (List.range 256).filter fun n => !decide (n ∈ t.codes) :=
    List.filter_congr fun n hn => isNone_decodeOpcodeWith (List.mem_range.mp hn)
  have hlegal : ((List.range 256).filter fun n => decide (n ∈ t.codes)).Perm t.codes := by
    refine (List.perm_ext_iff_of_nodup (List.nodup_range.filter _) hd.codes_nodup).mpr fun n => ?_
    have hlt : n ∈ t.codes → n < 256 := by
      intro hn
      obtain ⟨o, rfl⟩ := Opcodes.mem_codes.mp hn
      exact (t.value o).isLt
    simpa using hlt
  have hsplit := List.length_eq_length_filter_add (l := List.range 256) fun n => decide (n ∈ t.codes)
  have h13 : t.codes.length = 13 := rfl
  rw [hlegal.length_eq, h13, List.length_range] at hsplit
  rw [hillegal]
  omega

/-- Settles O8: a byte outside the table is no row's value; the count is what thirteen distinct values leave. -/
theorem everyOtherOpcodeByteIsIllegal : Obligations.EveryOtherOpcodeByteIsIllegal := by
  unfold Obligations.EveryOtherOpcodeByteIsIllegal
  constructor
  · intro ir a b hir
    exact decodeWith_error_iff.mpr ⟨rfl, fun o ho => hir (ho ▸ value_standardOpcodes_mem o)⟩
  · exact length_illegal_bytes specWordsDecode.1

end Sys2Proof
end

section
/-! PROOFS. The step from the bytes in memory (40_cycle_and_system.md R70): the instruction at `pc` is the one that runs. -/

namespace Sys2Proof.Machine

/-- The step at an instruction is its meaning. -/
theorem step_of_at {s : State} {i : Instr} (hr : s.status = .running) (h : s.At i) : step s = exec i s :=
  stepWith_exec hr h.1 h.2

/-- Settles O10: `State.At` written out. -/
theorem stepRunsTheDecodedInstruction : Obligations.StepRunsTheDecodedInstruction := by
  unfold Obligations.StepRunsTheDecodedInstruction
  exact fun s i hr hpc hd => step_of_at hr ⟨hpc, hd⟩

/-- Settles O11: the fetched bytes are the encoding's where it has any, so they decode to the instruction. -/
theorem stepExecutesTheEncodedInstruction : Obligations.StepExecutesTheEncodedInstruction := by
  unfold Obligations.StepExecutesTheEncodedInstruction
  intro ops s i hd hr hpc hbytes
  have hir : s.mem.read s.pc.toNat = ops.value i.opcode := hbytes 0 _ rfl
  refine stepWith_exec hr hpc ?_
  rw [hir]
  exact decodeWith_encoded hd (fun v hv => (hbytes 1 v hv).symm) fun v hv => (hbytes 2 v hv).symm

end Sys2Proof.Machine
end

section
/-! PROOFS. What any instruction may change (the tables of 10_state.md sections 2, 3, 6 and 7): registers, memory, output
and `pc`, each by cases on how the instruction ended. -/

namespace Sys2Proof.Machine

/-! ### Registers -/

/-- An end of an instruction writes no register outside its row of the table. -/
theorem Effect.keeps_reg {i : Instr} {s t : State} (h : Effect i s t) {r : RegIndex} (hr : r.val ∉ regsWritten i) :
    t.readReg r = s.readReg r := by
  have hne : ∀ {a : RegIndex}, a.val ∈ regsWritten i → r ≠ a := fun ha e => hr (e ▸ ha)
  cases h with
  | ldi imm a ha => exact s.readReg_writeReg_ne _ (hne (by simp [regsWritten, ha]))
  | mul a b ha => exact s.readReg_writeReg_ne _ (hne (by simp [regsWritten, ha]))
  | add a b ha => exact s.readReg_writeReg_ne _ (hne (by simp [regsWritten, ha]))
  | push a => exact s.readReg_writeReg_ne _ (hne (a := spIndex) (by simp [regsWritten, spIndex]))
  | pop a ha =>
    have h7 : r ≠ spIndex := hne (by simp [regsWritten, spIndex])
    have hra : r ≠ a := hne (by simp [regsWritten, ha])
    exact (State.readReg_writeReg_ne _ _ h7).trans (s.readReg_writeReg_ne _ hra)
  | call a => exact s.readReg_writeReg_ne _ (hne (a := spIndex) (by simp [regsWritten, spIndex]))
  | ret => exact s.readReg_writeReg_ne _ (hne (a := spIndex) (by simp [regsWritten, spIndex]))
  | _ => rfl

/-- Settles O22: by the cases of `Effect`. -/
theorem registersChangeOnlyByTheTable : Obligations.RegistersChangeOnlyByTheTable := by
  unfold Obligations.RegistersChangeOnlyByTheTable
  exact fun i s t h r => (exec_effect h).keeps_reg

/-! ### Memory -/

/-- A write at the decremented stack pointer leaves every address but `sp - 1` as it was. -/
theorem Memory.read_write_below_sp (m : Memory) {sp : Byte} (hs : 0 < sp.toNat) (v : Byte) {a : Nat}
    (ha : a ≠ sp.toNat - 1) : (m.write (sp - 1).toNat v).read a = m.read a := by
  rw [sp_sub_one_toNat hs]
  exact m.read_write_ne v ha

/-- No end of an instruction other than PUSH and CALL writes memory. -/
theorem Effect.sameMem {i : Instr} {s t : State} (h : Effect i s t) (hpush : i.opcode ≠ .push)
    (hcall : i.opcode ≠ .call) : SameMem s t := by
  cases h with
  | push => exact absurd rfl hpush
  | call => exact absurd rfl hcall
  | _ => exact fun _ => rfl

/-- A PUSH or a CALL that ends at `sp = 0` ended in a fault, and otherwise it wrote at most the cell at `sp - 1`. -/
theorem Effect.sameMemBut {i : Instr} {s t : State} (h : Effect i s t) :
    (s.sp.toNat = 0 → SameMem s t) ∧ (0 < s.sp.toNat → SameMemBut (s.sp.toNat - 1) s t) := by
  cases h with
  | push a ha hs =>
    exact ⟨fun h0 => absurd h0 hs.ne', fun _ _ hne => s.mem.read_write_below_sp hs _ hne⟩
  | call a ha hs =>
    exact ⟨fun h0 => absurd h0 hs.ne', fun _ _ hne => s.mem.read_write_below_sp hs _ hne⟩
  | _ => exact ⟨fun _ _ => rfl, fun _ _ _ => rfl⟩

/-- Settles O23: by the cases of `Effect`. -/
theorem memoryChangesOnlyBelowTheStackPointer : Obligations.MemoryChangesOnlyBelowTheStackPointer := by
  unfold Obligations.MemoryChangesOnlyBelowTheStackPointer
  exact fun i s t h => ⟨(exec_effect h).sameMem, fun _ => (exec_effect h).sameMemBut⟩

/-! ### Output -/

/-- An end of an instruction appends nothing, or is a PRN's and appends its register. -/
theorem Effect.out_cases {i : Instr} {s t : State} (h : Effect i s t) :
    t.out = s.out ∨ ∃ (ra : Byte) (a : RegIndex), i = .prn ra ∧ Names ra a ∧ t.out = s.out ++ [s.readReg a] := by
  cases h with
  | prn a ha => exact .inr ⟨_, a, rfl, ha, rfl⟩
  | _ => exact .inl rfl

/-- Settles O24: fault entry keeps the output, and so does every completion but PRN's. -/
theorem outputGrowsOnlyByPrn : Obligations.OutputGrowsOnlyByPrn := by
  unfold Obligations.OutputGrowsOnlyByPrn
  intro s t h
  obtain ⟨-, ⟨k, -, rfl⟩ | ⟨i, hat, he⟩⟩ := step_next_cases h
  · exact .inl rfl
  · obtain hout | ⟨ra, a, rfl, ha, hout⟩ := he.out_cases
    · exact .inl hout
    · exact .inr ⟨ra, a, hat, ha, hout⟩

/-! ### The new pc -/

/-- An advance of `pc` in range, as a number. -/
theorem State.pc_add_toNat {s : State} {n : Nat} (h : s.pc.toNat + n ≤ 255) :
    (s.pc + BitVec.ofNat 8 n).toNat = s.pc.toNat + n :=
  State.advance_toNat (State.advance_ok h)

/-- A sequential instruction that completes goes past its operands. -/
theorem Effect.pc_sequential {i : Instr} {s t : State} (h : Effect i s t) (hf : t.fault = none)
    (hi : i.opcode ∈ [Opcode.hlt, .ldi, .prn, .mul, .add, .cmp, .push, .pop]) :
    t.pc.toNat = s.pc.toNat + 1 + operandCount i.opcode := by
  cases h with
  | raised k => cases hf
  | hlt hp => exact State.pc_add_toNat hp
  | ldi imm a ha hp => exact State.pc_add_toNat hp
  | prn a ha hp => exact State.pc_add_toNat hp
  | mul a b ha hb hp => exact State.pc_add_toNat hp
  | add a b ha hb hp => exact State.pc_add_toNat hp
  | push a ha hs hp => exact State.pc_add_toNat hp
  | pop a ha hs hp => exact State.pc_add_toNat hp
  | cmp a b ha hb hp => exact State.pc_add_toNat hp
  | _ => simp [Instr.opcode] at hi

/-- CALL goes to its register, read after the decrement (D11). -/
theorem Effect.pc_call {ra : Byte} {s t : State} (h : Effect (.call ra) s t) (hf : t.fault = none) :
    ∃ a, Names ra a ∧ t.pc = t.readReg a := by
  cases h with
  | raised k => cases hf
  | call a ha => exact ⟨a, ha, rfl⟩

theorem Effect.pc_ret {s t : State} (h : Effect .ret s t) (hf : t.fault = none) : t.pc = s.mem.read s.sp.toNat := by
  cases h with
  | raised k => cases hf
  | ret => rfl

theorem Effect.pc_jmp {ra : Byte} {s t : State} (h : Effect (.jmp ra) s t) (hf : t.fault = none) :
    ∃ a, Names ra a ∧ t.pc = s.readReg a := by
  cases h with
  | raised k => cases hf
  | jmp a ha => exact ⟨a, ha, rfl⟩

theorem Effect.pc_jeq {ra : Byte} {s t : State} (h : Effect (.jeq ra) s t) (hf : t.fault = none) :
    ∃ a, Names ra a ∧ if equalBit s.fl = true then t.pc = s.readReg a else t.pc.toNat = s.pc.toNat + 2 := by
  cases h with
  | raised k => cases hf
  | jeqTaken a ha he => exact ⟨a, ha, by rw [if_pos he]; rfl⟩
  | jeqNot a ha he hp => exact ⟨a, ha, by rw [if_neg (ne_true_of_eq_false he)]; exact State.pc_add_toNat hp⟩

theorem Effect.pc_jne {ra : Byte} {s t : State} (h : Effect (.jne ra) s t) (hf : t.fault = none) :
    ∃ a, Names ra a ∧ if equalBit s.fl = true then t.pc.toNat = s.pc.toNat + 2 else t.pc = s.readReg a := by
  cases h with
  | raised k => cases hf
  | jneTaken a ha he => exact ⟨a, ha, by rw [if_neg (ne_true_of_eq_false he)]; rfl⟩
  | jneNot a ha he hp => exact ⟨a, ha, by rw [if_pos he]; exact State.pc_add_toNat hp⟩

/-- Settles O25: one lemma per line of the table. -/
theorem newPcOfEveryInstruction : Obligations.NewPcOfEveryInstruction := by
  unfold Obligations.NewPcOfEveryInstruction
  intro i s t _ _ h hf
  have he := exec_effect h
  refine ⟨he.pc_sequential hf, ?_, ?_, ?_, ?_, ?_⟩
  · rintro ra rfl
    exact he.pc_call hf
  · rintro rfl
    exact he.pc_ret hf
  · rintro ra rfl
    exact he.pc_jmp hf
  · rintro ra rfl
    exact he.pc_jeq hf
  · rintro ra rfl
    exact he.pc_jne hf

end Sys2Proof.Machine
end

section
/-! PROOFS. What each instruction does and leaves alone (40_cycle_and_system.md to 44_control.md). The completion lemmas
name the next state; what is left is to read it: `pc` by `State.pc_add_toNat`, a register file by the rules of
`writeReg`, memory by the rules of a write. -/

namespace Sys2Proof.Machine

/-! ### The register file of a next state -/

/-- One written register: every other one reads as before. -/
theorem State.sameRegsBut_writeReg (s : State) (a : RegIndex) (v : Byte) : SameRegsBut [a] s (s.writeReg a v) :=
  (s.writeReg_frame a v).1

/-- POP's two writes: every register but its own and R7 reads as before. -/
theorem State.sameRegsBut_popped (s : State) (a : RegIndex) (v : Byte) :
    SameRegsBut [a, 7] s ((s.popped a).writeReg spIndex v) := by
  intro r hr
  obtain ⟨hra, hr7⟩ := not_or.mp (List.mem_cons.not.mp hr)
  exact (State.readReg_writeReg_ne _ _ (List.ne_of_not_mem_cons hr7)).trans (s.readReg_writeReg_ne _ hra)

/-! ### The system instructions, LDI and the ALU -/

/-- Settles O26: `execHlt_completes` at an address below 254. -/
theorem hltHalts : Obligations.HltHalts := by
  unfold Obligations.HltHalts
  intro s hpc
  have hp : s.pc.toNat + 1 ≤ 255 := by omega
  exact ⟨_, execHlt_completes hp, rfl, rfl, State.pc_add_toNat hp, rfl, rfl, fun _ _ => rfl, fun _ => rfl⟩

/-- Settles O27: `execPrn_completes`; the value emitted is read before `pc` moves. -/
theorem prnEmitsTheRegister : Obligations.PrnEmitsTheRegister := by
  unfold Obligations.PrnEmitsTheRegister
  intro ra a s ha hpc
  have hp : s.pc.toNat + 2 ≤ 255 := by omega
  exact ⟨_, execPrn_completes ha hp, rfl, State.pc_add_toNat hp, rfl, ⟨rfl, rfl⟩, fun _ _ => rfl, fun _ => rfl⟩

/-- Settles O28: `execLdi_completes`; one register is written. -/
theorem ldiLoadsTheImmediate : Obligations.LdiLoadsTheImmediate := by
  unfold Obligations.LdiLoadsTheImmediate
  intro ra imm a s ha hpc
  have hp : s.pc.toNat + 3 ≤ 255 := by omega
  exact ⟨_, execLdi_completes imm ha hp, s.readReg_writeReg_self a imm, State.pc_add_toNat hp, rfl, rfl, ⟨rfl, rfl⟩,
    s.sameRegsBut_writeReg a imm, fun _ => rfl⟩

/-- Settles O29: `BitVec` addition is addition modulo 256. -/
theorem addWrapsModulo256 : Obligations.AddWrapsModulo256 := by
  unfold Obligations.AddWrapsModulo256
  intro ra rb a b s ha hb hpc
  have hp : s.pc.toNat + 3 ≤ 255 := by omega
  refine ⟨_, execAdd_completes ha hb hp, ?_, State.pc_add_toNat hp, rfl, rfl, ⟨rfl, rfl⟩,
    s.sameRegsBut_writeReg a _, fun _ => rfl⟩
  rw [State.readReg_setPc, State.readReg_writeReg_self]
  exact BitVec.toNat_add _ _

/-- Settles O30: `BitVec` multiplication is multiplication modulo 256. -/
theorem mulKeepsTheLowByte : Obligations.MulKeepsTheLowByte := by
  unfold Obligations.MulKeepsTheLowByte
  intro ra rb a b s ha hb hpc
  have hp : s.pc.toNat + 3 ≤ 255 := by omega
  refine ⟨_, execMul_completes ha hb hp, ?_, State.pc_add_toNat hp, rfl, rfl, ⟨rfl, rfl⟩,
    s.sameRegsBut_writeReg a _, fun _ => rfl⟩
  rw [State.readReg_setPc, State.readReg_writeReg_self]
  exact BitVec.toNat_mul _ _

/-- Settles O31: `compareFlags` written out. -/
theorem cmpSetsExactlyOneFlag : Obligations.CmpSetsExactlyOneFlag := by
  unfold Obligations.CmpSetsExactlyOneFlag
  intro ra rb a b s ha hb hpc
  have hp : s.pc.toNat + 3 ≤ 255 := by omega
  exact ⟨_, execCmp_completes ha hb hp, rfl, State.pc_add_toNat hp, rfl, ⟨rfl, rfl⟩, fun _ _ => rfl, fun _ => rfl⟩

/-! ### The stack -/

/-- The cell a write at the decremented stack pointer fills. -/
theorem Memory.read_write_at_sp_sub_one (m : Memory) {sp : Byte} (hs : 0 < sp.toNat) (v : Byte) :
    (m.write (sp - 1).toNat v).read (sp.toNat - 1) = v := by
  rw [sp_sub_one_toNat hs, Memory.read_write_self]

/-- Settles O32: PUSH and CALL read their operand in `State.pushed`, where R7 is the decremented pointer. -/
theorem pushStoresBelowTheStackPointer : Obligations.PushStoresBelowTheStackPointer := by
  unfold Obligations.PushStoresBelowTheStackPointer
  intro ra a s ha hpc hs
  have hp : s.pc.toNat + 2 ≤ 255 := by omega
  refine ⟨_, execPush_completes ha hs hp, ?_, ?_, State.pc_add_toNat hp, rfl, rfl, ⟨rfl, rfl⟩,
    s.sameRegsBut_writeReg spIndex _, fun _ hne => s.mem.read_write_below_sp hs _ hne⟩
  · rw [State.sp_setPc, State.sp_setMem, State.sp_pushed, sp_sub_one_toNat hs]
  · rw [State.setPc_mem, State.setMem_mem, Memory.read_write_at_sp_sub_one _ hs, State.sp_setPc, State.sp_setMem,
      State.sp_pushed]
    exact s.readReg_pushed a

/-- Settles O33: off R7, POP increments the old stack pointer and leaves the loaded register alone. -/
theorem popLoadsAtTheStackPointer : Obligations.PopLoadsAtTheStackPointer := by
  unfold Obligations.PopLoadsAtTheStackPointer
  intro ra a s ha h7 hpc hs
  have hp : s.pc.toNat + 2 ≤ 255 := by omega
  have hsp : (s.popped a).sp = s.sp := (s.sp_popped a).trans (if_neg h7)
  refine ⟨_, execPop_completes ha (hsp ▸ hs) hp, ?_, ?_, State.pc_add_toNat hp, rfl, rfl, ⟨rfl, rfl⟩,
    s.sameRegsBut_popped a _, fun _ => rfl⟩
  · rw [State.readReg_setPc, State.readReg_writeReg_ne (i := spIndex) _ _ h7, State.readReg_popped, if_pos rfl]
  · rw [State.sp_setPc, State.sp_writeReg_sp, hsp, sp_add_one_toNat hs]

/-- Settles O34: into R7, POP increments the loaded value. -/
theorem popIntoTheStackPointerIncrementsTheLoadedValue : Obligations.PopIntoTheStackPointerIncrementsTheLoadedValue := by
  unfold Obligations.PopIntoTheStackPointerIncrementsTheLoadedValue
  intro ra s ha hpc hv
  have hp : s.pc.toNat + 2 ≤ 255 := by omega
  have hsp : (s.popped 7).sp = s.mem.read s.sp.toNat := (s.sp_popped 7).trans (if_pos rfl)
  refine ⟨_, execPop_completes ha (hsp ▸ hv) hp, ?_, State.pc_add_toNat hp, rfl, rfl, ⟨rfl, rfl⟩, ?_, fun _ => rfl⟩
  · rw [State.sp_setPc, State.sp_writeReg_sp, hsp, sp_add_one_toNat hv]
  · exact fun r hr => s.sameRegsBut_popped 7 _ r (by simpa using hr)

/-! ### Control transfer -/

/-- Settles O35: the stored byte is `pc + 2`, the target is read in `State.pushed`. -/
theorem callPushesTheReturnAddress : Obligations.CallPushesTheReturnAddress := by
  unfold Obligations.CallPushesTheReturnAddress
  intro ra a s ha hpc hs
  have hp : s.pc.toNat + 2 ≤ 255 := by omega
  refine ⟨_, execCall_completes ha hs hp, ?_, ?_, ?_, rfl, rfl, ⟨rfl, rfl⟩,
    s.sameRegsBut_writeReg spIndex _, fun _ hne => s.mem.read_write_below_sp hs _ hne⟩
  · rw [State.sp_setPc, State.sp_setMem, State.sp_pushed, sp_sub_one_toNat hs]
  · rw [State.setPc_mem, State.setMem_mem, Memory.read_write_at_sp_sub_one _ hs]
    exact State.pc_add_toNat hp
  · rw [State.sp_setPc, State.sp_setMem, State.sp_pushed]
    exact s.readReg_pushed a

/-- Settles O36: `execRet_completes`; no advance of `pc` takes part. -/
theorem retPopsThePc : Obligations.RetPopsThePc := by
  unfold Obligations.RetPopsThePc
  intro s hs
  refine ⟨_, execRet_completes hs, rfl, ?_, rfl, rfl, ⟨rfl, rfl⟩, s.sameRegsBut_writeReg spIndex _, fun _ => rfl⟩
  rw [State.sp_setPc, State.sp_writeReg_sp, sp_add_one_toNat hs]

/-- Settles O37: `execJmp_completes`; only `pc` is written. -/
theorem jmpGoesToTheRegister : Obligations.JmpGoesToTheRegister := by
  unfold Obligations.JmpGoesToTheRegister
  exact fun ra a s ha => ⟨_, execJmp_completes ha, rfl, rfl, rfl, ⟨rfl, rfl⟩, fun _ _ => rfl, fun _ => rfl⟩

/-- Settles O38: by the value of E. -/
theorem branchesAreComplements : Obligations.BranchesAreComplements := by
  unfold Obligations.BranchesAreComplements
  intro ra a s ha hpc
  have hp : s.pc.toNat + 2 ≤ 255 := by omega
  cases he : equalBit s.fl with
  | true =>
    refine ⟨_, _, execJeq_taken ha he, execJne_not ha he hp, ?_, rfl, rfl, ⟨rfl, rfl⟩, fun _ _ => rfl, fun _ => rfl,
      rfl, rfl, ⟨rfl, rfl⟩, fun _ _ => rfl, fun _ => rfl⟩
    exact (if_pos he).mpr ⟨rfl, State.pc_add_toNat hp⟩
  | false =>
    refine ⟨_, _, execJeq_not ha he hp, execJne_taken ha he, ?_, rfl, rfl, ⟨rfl, rfl⟩, fun _ _ => rfl, fun _ => rfl,
      rfl, rfl, ⟨rfl, rfl⟩, fun _ _ => rfl, fun _ => rfl⟩
    exact (if_neg (ne_true_of_eq_false he)).mpr ⟨State.pc_add_toNat hp, rfl⟩

end Sys2Proof.Machine
end

section
/-! PROOFS. Where an instruction faults instead (60_exceptions.md R141, R146, R150), and the stack pointer's operations at
the ends of memory (43_stack.md R111). Each fault lemma names the raised state; `State.raised_raise` says that nothing
else changed. -/

namespace Sys2Proof.Machine

/-! ### Register operands -/

/-- An illegal first operand raises before anything else is done, in every instruction that has a register operand. -/
theorem exec_invalid_first {i : Instr} {ra : Byte} (hi : i.operands.head? = some ra) (h : 7 < ra.toNat) (s : State) :
    exec i s = .next (s.raise (.invalidRegister ra)) := by
  have hra : regIndex ra = .error (.invalidRegister ra) := regIndex_error h
  cases i with
  | hlt | ret => cases hi
  | ldi => cases hi; rw [exec_ldi, execLdi, hra]; rfl
  | prn => cases hi; rw [exec_prn, execPrn, hra]; rfl
  | mul => cases hi; rw [exec_mul, execMul, aluInstr, hra]; rfl
  | add => cases hi; rw [exec_add, execAdd, aluInstr, hra]; rfl
  | push => cases hi; rw [exec_push, execPush, hra]; rfl
  | pop => cases hi; rw [exec_pop, execPop, hra]; rfl
  | call => cases hi; rw [exec_call, execCall, hra]; rfl
  | cmp => cases hi; rw [exec_cmp, execCmp, aluInstr, hra]; rfl
  | jmp => cases hi; rw [exec_jmp, execJmp, hra]; rfl
  | jeq => cases hi; rw [exec_jeq, execJeq, branchIf, hra]; rfl
  | jne => cases hi; rw [exec_jne, execJne, branchIf, hra]; rfl

/-- An illegal second operand raises after the first one was found legal, before the ALU is asked. -/
theorem aluInstr_invalid_second (op : AluOp) {ra rb : Byte} (ha : ra.toNat ≤ 7) (hb : 7 < rb.toNat) (s : State) :
    aluInstr op ra rb s = .error (.invalidRegister rb) := by
  rw [aluInstr, regIndex_ok (Nat.lt_succ_of_le ha), bind_ok, regIndex_error hb, bind_error]

/-- Settles O39: all the instructions listed have `ra` as their first operand byte; the three of the second clause are
`aluInstr`. -/
theorem invalidRegisterComesFirst : Obligations.InvalidRegisterComesFirst := by
  unfold Obligations.InvalidRegisterComesFirst
  constructor
  · intro ra imm s i h hi
    have hfirst : i.operands.head? = some ra := by
      revert i
      simp [Instr.operands]
    exact ⟨_, exec_invalid_first hfirst h s, s.raised_raise _⟩
  · intro ra rb s i ha hb hi
    refine ⟨s.raise (.invalidRegister rb), ?_, s.raised_raise _⟩
    have halu (op : AluOp) : s.commit (aluInstr op ra rb s) = .next (s.raise (.invalidRegister rb)) := by
      rw [aluInstr_invalid_second op ha hb, State.commit_error]
    simp only [List.mem_cons, List.not_mem_nil, or_false] at hi
    rcases hi with rfl | rfl | rfl
    · exact halu .mul
    · exact halu .add
    · exact halu .cmp

/-! ### A three-byte instruction at 253 -/

/-- `pc + 3` from 253 is the address 256 that does not exist. -/
theorem State.advance_three_at_253 {s : State} (h : s.pc.toNat = 253) : s.advance 3 = .error (.outOfBounds 256) := by
  rw [State.advance_error (by omega), h]
  rfl

theorem execLdi_at_253 {ra : Byte} (imm : Byte) {s : State} (ha : ra.toNat < 8) (hpc : s.pc.toNat = 253) :
    execLdi ra imm s = .next (s.raise (.outOfBounds 256)) := by
  rw [execLdi, regIndex_ok ha, bind_ok, State.advance_three_at_253 hpc]
  rfl

/-- The common shape of ADD, MUL and CMP at 253: the ALU's result is dropped. -/
theorem aluInstr_at_253 {op : AluOp} {ra rb : Byte} {s : State} (ho : ∀ a b, ∃ t, aluApply op a b s = .ok t)
    (ha : ra.toNat < 8) (hb : rb.toNat < 8) (hpc : s.pc.toNat = 253) :
    aluInstr op ra rb s = .error (.outOfBounds 256) := by
  obtain ⟨t, ht⟩ := ho ⟨ra.toNat, ha⟩ ⟨rb.toNat, hb⟩
  rw [aluInstr, regIndex_ok ha, bind_ok, regIndex_ok hb, bind_ok, ht, bind_ok, State.advance_three_at_253 hpc,
    bind_error]

/-- A checked operand byte is below 8. -/
theorem lt_of_regOperandOk {v : Byte} (h : regOperandOk v = true) : v.toNat < 8 :=
  Nat.lt_succ_of_le (of_decide_eq_true h)

/-- Both checks of a two-register instruction. -/
theorem lt_of_both_regOperandOk {v w : Byte} (h : (regOperandOk v && regOperandOk w) = true) :
    v.toNat < 8 ∧ w.toNat < 8 :=
  ⟨lt_of_regOperandOk (Bool.and_elim_left h), lt_of_regOperandOk (Bool.and_elim_right h)⟩

/-- Settles O40: LDI by itself, the other three through `aluInstr`. -/
theorem threeByteInstructionAt253Faults : Obligations.ThreeByteInstructionAt253Faults := by
  unfold Obligations.ThreeByteInstructionAt253Faults
  intro ra rb s i hpc hwf hi
  refine ⟨s.raise (.outOfBounds 256), ?_, s.raised_raise _⟩
  have halu (op : AluOp) (ho : ∀ a b, ∃ t, aluApply op a b s = .ok t)
      (hok : (regOperandOk ra && regOperandOk rb) = true) :
      s.commit (aluInstr op ra rb s) = .next (s.raise (.outOfBounds 256)) := by
    obtain ⟨ha, hb⟩ := lt_of_both_regOperandOk hok
    rw [aluInstr_at_253 ho ha hb hpc, State.commit_error]
  simp only [List.mem_cons, List.not_mem_nil, or_false] at hi
  rcases hi with rfl | rfl | rfl | rfl
  · exact execLdi_at_253 rb (lt_of_regOperandOk hwf) hpc
  · exact halu .mul (fun _ _ => ⟨_, rfl⟩) hwf
  · exact halu .add (fun _ _ => ⟨_, rfl⟩) hwf
  · exact halu .cmp (fun _ _ => ⟨_, rfl⟩) hwf

/-! ### The ends of the stack -/

theorem execPush_at_zero {ra : Byte} {s : State} (ha : ra.toNat < 8) (hs : s.sp.toNat = 0) :
    execPush ra s = .next (s.raise (.outOfBounds (-1))) := by
  rw [execPush, regIndex_ok ha, bind_ok, State.spDec_error hs]
  rfl

theorem execCall_at_zero {ra : Byte} {s : State} (ha : ra.toNat < 8) (hs : s.sp.toNat = 0) :
    execCall ra s = .next (s.raise (.outOfBounds (-1))) := by
  rw [execCall, regIndex_ok ha, bind_ok, State.spDec_error hs]
  rfl

/-- POP faults where the value it increments is 255: the loaded byte for R7, else the old stack pointer. -/
theorem execPop_at_top {ra : Byte} {a : RegIndex} {s : State} (ha : Names ra a) (hs : (s.popped a).sp.toNat = 255) :
    execPop ra s = .next (s.raise (.outOfBounds 256)) := by
  rw [execPop, regIndex_names ha, bind_ok, State.memRead_byte, bind_ok, ← State.popped, State.spInc_error hs]
  rfl

theorem execRet_at_top {s : State} (hs : s.sp.toNat = 255) : execRet s = .next (s.raise (.outOfBounds 256)) := by
  rw [execRet, State.memRead_byte, bind_ok, State.spInc_error hs]
  rfl

/-- Settles O41: one fault lemma per instruction, POP's by which value it increments. -/
theorem stackPointerEndsFault : Obligations.StackPointerEndsFault := by
  unfold Obligations.StackPointerEndsFault
  refine ⟨?_, ?_, ?_, fun s hs => ⟨_, execRet_at_top hs, s.raised_raise _⟩⟩
  · intro ra s i ha hs hi
    refine ⟨s.raise (.outOfBounds (-1)), ?_, s.raised_raise _⟩
    simp only [List.mem_cons, List.not_mem_nil, or_false] at hi
    rcases hi with rfl | rfl
    · exact execPush_at_zero (Nat.lt_succ_of_le ha) hs
    · exact execCall_at_zero (Nat.lt_succ_of_le ha) hs
  · intro ra s ha hs
    refine ⟨_, execPop_at_top (a := ⟨ra.toNat, Nat.lt_succ_of_lt ha⟩) rfl ?_, s.raised_raise _⟩
    rw [State.sp_popped, if_neg (Fin.ne_of_val_ne ha.ne), hs]
  · intro ra s ha hv
    refine ⟨_, execPop_at_top (a := spIndex) ha ?_, s.raised_raise _⟩
    rw [State.sp_popped, if_pos rfl, hv]

/-- Settles O44: the two specification lemmas of each operation; with the switch on, `BitVec` arithmetic wraps. -/
theorem stackPointerOperationsDoNotWrap : Obligations.StackPointerOperationsDoNotWrap := by
  unfold Obligations.StackPointerOperationsDoNotWrap
  constructor
  · intro s
    refine ⟨fun hs => ?_, State.spDec_error, fun hs => ?_, State.spInc_error⟩
    · refine ⟨_, State.spDec_ok hs, ?_, s.sameRegsBut_writeReg spIndex _, fun _ => rfl, rfl, rfl, rfl, rfl, rfl⟩
      rw [State.sp_writeReg_sp, sp_sub_one_toNat hs]
    · refine ⟨_, State.spInc_ok hs, ?_, s.sameRegsBut_writeReg spIndex _, fun _ => rfl, rfl, rfl, rfl, rfl, rfl⟩
      rw [State.sp_writeReg_sp, sp_add_one_toNat hs]
  · intro v
    refine ⟨v - 1, v + 1, rfl, rfl, ?_, BitVec.toNat_add v 1⟩
    rw [BitVec.toNat_sub, Nat.add_comm]
    rfl

end Sys2Proof.Machine
end

section
/-! PROOFS. Laws over two instructions and over whole steps (43_stack.md section 4, 44_control.md section 1,
20_memory.md section 8): the completion lemma of the second instruction at the next state of the first. -/

namespace Sys2Proof.Machine

/-! ### PUSH then POP -/

/-- Off R7, PUSH reads its operand as it was. -/
theorem State.readReg_pushed_ne (s : State) {r : RegIndex} (h : r ≠ 7) : s.pushed.readReg r = s.readReg r :=
  (s.readReg_pushed r).trans (if_neg h)

/-- The state after a PUSH. -/
def State.afterPush (s : State) (a : RegIndex) : State :=
  (s.pushed.setMem (s.mem.write (s.sp - 1).toNat (s.pushed.readReg a))).setPc (s.pc + 2)

theorem exec_push_afterPush {ra : Byte} {a : RegIndex} {s : State} (ha : Names ra a) (hs : 0 < s.sp.toNat)
    (hp : s.pc.toNat + 2 ≤ 255) : exec (.push ra) s = .next (s.afterPush a) :=
  execPush_completes ha hs hp

@[simp] theorem State.afterPush_pc (s : State) (a : RegIndex) : (s.afterPush a).pc = s.pc + 2 := rfl

@[simp] theorem State.afterPush_sp (s : State) (a : RegIndex) : (s.afterPush a).sp = s.sp - 1 := s.sp_pushed

@[simp] theorem State.readReg_afterPush (s : State) (a r : RegIndex) :
    (s.afterPush a).readReg r = s.pushed.readReg r := rfl

/-- The cell `sp` names after a PUSH holds what the PUSH stored. -/
theorem State.read_sp_afterPush (s : State) (a : RegIndex) :
    (s.afterPush a).mem.read (s.afterPush a).sp.toNat = s.pushed.readReg a := by
  rw [State.afterPush_sp]
  exact s.mem.read_write_self _ _

/-- POP of the register just pushed loads the value that register has. -/
theorem State.readReg_popped_afterPush (s : State) (a r : RegIndex) :
    ((s.afterPush a).popped a).readReg r = s.pushed.readReg r := by
  rw [State.readReg_popped, State.read_sp_afterPush, State.readReg_afterPush]
  split
  · next h => rw [h]
  · rfl

/-- So POP increments the decremented pointer, whether the register is R7 or not. -/
theorem State.sp_popped_afterPush (s : State) (a : RegIndex) : ((s.afterPush a).popped a).sp = s.sp - 1 :=
  (s.readReg_popped_afterPush a spIndex).trans s.sp_pushed

/-- Settles O47: PUSH's next state is `afterPush`; popping the same register there changes no register but `sp`, which
goes back up. -/
theorem pushThenPopRestores : Obligations.PushThenPopRestores := by
  unfold Obligations.PushThenPopRestores
  intro ra a s ha hpc hs
  have hp : s.pc.toNat + 2 ≤ 255 := by omega
  have hpc2 : (s.pc + 2).toNat = s.pc.toNat + 2 := State.pc_add_toNat hp
  have hp2 : (s.afterPush a).pc.toNat + 2 ≤ 255 := by
    rw [State.afterPush_pc, hpc2]
    omega
  have hsp : ((s.afterPush a).popped a).sp.toNat < 255 := by
    rw [State.sp_popped_afterPush, sp_sub_one_toNat hs]
    omega
  refine ⟨_, _, exec_push_afterPush ha hs hp, execPop_completes ha hsp hp2, ?_, ?_,
    fun _ hne => s.mem.read_write_below_sp hs _ hne, ?_, rfl, rfl, rfl, rfl⟩
  · intro r _
    rw [State.readReg_setPc, State.readReg_writeReg, State.sp_popped_afterPush, State.readReg_popped_afterPush,
      State.readReg_pushed]
    split
    · next h => rw [h, BitVec.sub_add_cancel, State.sp]
    · rfl
  · rw [State.setPc_pc]
    exact (State.pc_add_toNat hp2).trans (by rw [State.afterPush_pc, hpc2])
  · intro h7
    exact (s.mem.read_write_at_sp_sub_one hs _).trans (s.readReg_pushed_ne h7)

/-! ### CALL then RET -/

/-- Settles O48: RET pops what CALL pushed, from any state with the same `sp` and the same byte there. -/
theorem retReturnsAfterTheCall : Obligations.RetReturnsAfterTheCall := by
  unfold Obligations.RetReturnsAfterTheCall
  intro ra a s ha hpc hs
  have hp : s.pc.toNat + 2 ≤ 255 := by omega
  refine ⟨_, execCall_completes ha hs hp, ?_⟩
  intro u husp hcell
  rw [State.sp_setPc, State.sp_setMem, State.sp_pushed] at husp hcell
  rw [State.setPc_mem, State.setMem_mem, Memory.read_write_self] at hcell
  have hlt : u.sp.toNat < 255 := by
    rw [husp, sp_sub_one_toNat hs]
    omega
  refine ⟨_, execRet_completes hlt, ?_, ?_⟩
  · rw [State.setPc_pc, hcell]
    exact State.pc_add_toNat hp
  · rw [State.sp_setPc, State.sp_writeReg_sp, husp, BitVec.sub_add_cancel]

/-! ### Whole steps -/

/-- The bytes of an LDI at `pc` (R54). -/
theorem State.at_ldi {s : State} {rb v : Byte} (hpc : s.pc.toNat ≤ 253) (h0 : s.mem.read s.pc.toNat = 0x82)
    (h1 : s.mem.read (s.pc.toNat + 1) = rb) (h2 : s.mem.read (s.pc.toNat + 2) = v) : s.At (.ldi rb v) := by
  refine ⟨hpc, ?_⟩
  rw [State.fetched, h0, h1, h2]
  rfl

/-- The bytes of a PRN at `pc` (R54, D1). -/
theorem State.at_prn {s : State} {rb : Byte} (hpc : s.pc.toNat ≤ 253) (h0 : s.mem.read s.pc.toNat = 0x47)
    (h1 : s.mem.read (s.pc.toNat + 1) = rb) : s.At (.prn rb) := by
  refine ⟨hpc, ?_⟩
  rw [State.fetched, h0, h1]
  rfl

/-- Settles O49: two steps, each at the instruction its bytes decode to; what LDI and PRN do is O28 and O27. -/
theorem ldiThenPrnEmitsTheValue : Obligations.LdiThenPrnEmitsTheValue := by
  unfold Obligations.LdiThenPrnEmitsTheValue
  intro r v rb s hr hpc hrb h0 h1 h2 h3 h4
  obtain ⟨t, ht, htv, htpc, -, htout, ⟨htr, -⟩, -, htmem⟩ := ldiLoadsTheImmediate rb v r s hrb (by omega)
  obtain ⟨u, hu, huout, hupc, -, -, huregs, -⟩ := prnEmitsTheRegister rb r t hrb (by omega)
  have hldi : s.At (.ldi rb v) := State.at_ldi (by omega) h0 h1 h2
  have hprn : t.At (.prn rb) := State.at_prn (by omega) (by rw [htmem, htpc, h3]) (by rw [htmem, htpc, h4])
  have hstep : step s = .next t := (step_of_at hr hldi).trans ht
  have hrt : t.status = .running := htr.trans hr
  have hstep2 : step t = .next u := (step_of_at hrt hprn).trans hu
  refine ⟨u, (runFor_succ hr hstep 1).trans (runFor_succ hrt hstep2 0), ?_, ?_, ?_⟩
  · rw [huout, htout, htv]
  · omega
  · rw [huregs r List.not_mem_nil, htv]

/-- Settles O50: `pc + 2` is the cell PUSH stored to. -/
theorem nextFetchSeesThePush : Obligations.NextFetchSeesThePush := by
  unfold Obligations.NextFetchSeesThePush
  intro ra a s hr hat ha h7 hsp
  have hpc := hat.1
  have hp : s.pc.toNat + 2 ≤ 255 := by omega
  have hs : 0 < s.sp.toNat := by omega
  have hpc2 : (s.afterPush a).pc.toNat = s.pc.toNat + 2 := State.pc_add_toNat hp
  have hcell : (s.afterPush a).pc.toNat = (s.afterPush a).sp.toNat := by
    rw [hpc2, State.afterPush_sp, sp_sub_one_toNat hs, hsp]
    rfl
  refine ⟨_, (step_of_at hr hat).trans (exec_push_afterPush ha hs hp), hpc2, ?_⟩
  rw [State.fetched, hcell, State.read_sp_afterPush, State.readReg_pushed_ne _ h7]

/-- A machine whose step is the identity runs for ever in the same state. -/
theorem runFor_of_step_self {s : State} (hr : s.status = .running) (h : step s = .next s) (n : Nat) :
    runFor n s = .next s := by
  induction n with
  | zero => rfl
  | succ n ih => rw [runFor_succ hr h, ih]

/-- Settles O51: the jump writes to `pc` what stands there, so no run reaches Halted. -/
theorem jumpToSelfNeverReturns : Obligations.JumpToSelfNeverReturns := by
  unfold Obligations.JumpToSelfNeverReturns
  intro ra a s hr hat ha hself
  have hstep : step s = .next s := by
    rw [step_of_at hr hat, exec_jmp, execJmp_completes ha, hself]
    rfl
  refine ⟨hstep, ?_⟩
  rintro ⟨t, n, -, ht, hh⟩
  rw [runFor_of_step_self hr hstep] at ht
  cases ht
  rw [hr] at hh
  cases hh

end Sys2Proof.Machine
end

section
/-! PROOFS. `load` (70_reset_and_hazards.md R172, R173) and the text of an emitted byte (40_cycle_and_system.md R82). The
writes of `load` are `Memory.placeFrom`, whose cells are read by induction on the image. -/

namespace Sys2Proof.Machine

/-! ### The memory `load` leaves -/

/-- The entries of an image written from an address upward. `State.loadFrom_eq` ties it to the model's `load`. -/
def Memory.placeFrom (m : Memory) (base : Nat) : List Nat → Memory
  | [] => m
  | v :: image => (m.write base (BitVec.ofNat 8 v)).placeFrom (base + 1) image

/-- An image that fits is placed without a fault, and only memory changes. -/
theorem State.loadFrom_eq (s : State) {base : Nat} {image : List Nat} (h : base + image.length ≤ 256) :
    s.loadFrom base image = .ok (s.setMem (s.mem.placeFrom base image)) := by
  induction image generalizing s base with
  | nil => rfl
  | cons v image ih =>
    rw [List.length_cons] at h
    rw [State.loadFrom, State.memWrite_nat s (by omega), bind_ok, ih _ (by omega)]
    rfl

/-- Below the image memory reads as before. -/
theorem Memory.read_placeFrom_below (m : Memory) {base a : Nat} (image : List Nat) (h : a < base) :
    (m.placeFrom base image).read a = m.read a := by
  induction image generalizing m base with
  | nil => rfl
  | cons v image ih => rw [Memory.placeFrom, ih _ (Nat.lt_succ_of_lt h), Memory.read_write_ne _ _ h.ne]

/-- From its base up the image's entries stand in order, and above it memory reads as before. -/
theorem Memory.read_placeFrom (m : Memory) (base i : Nat) (image : List Nat) :
    (m.placeFrom base image).read (base + i) =
      (image[i]?.map (BitVec.ofNat 8)).getD (m.read (base + i)) := by
  induction image generalizing m base i with
  | nil => rfl
  | cons v image ih =>
    cases i with
    | zero => exact (Memory.read_placeFrom_below _ image (Nat.lt_succ_self base)).trans (m.read_write_self base _)
    | succ i =>
      have hne : base + (i + 1) ≠ base := by omega
      rw [Memory.placeFrom, Nat.add_comm i 1, ← Nat.add_assoc, ih, Nat.add_assoc, Nat.add_comm 1 i,
        Memory.read_write_ne _ _ hne, List.getElem?_cons_succ]

/-- Placing an image inside the address space keeps the canonical form. -/
theorem Memory.wf_placeFrom {m : Memory} (hm : m.wf = true) {base : Nat} {image : List Nat}
    (h : base + image.length ≤ 256) : (m.placeFrom base image).wf = true := by
  induction image generalizing m base with
  | nil => exact hm
  | cons v image ih =>
    rw [List.length_cons] at h
    exact ih (Memory.wf_write hm (by omega) _) (by omega)

/-- In memory that was all 0x00, an image of bytes placed from 0 reads back, and 0x00 follows it. -/
theorem Memory.read_placeFrom_nil {image : List Nat} (hb : ∀ v ∈ image, v ≤ 255) (i : Nat) :
    ((Memory.placeFrom [] 0 image).read i).toNat = image.getD i 0 := by
  have hread := Memory.read_placeFrom [] 0 i image
  rw [Nat.zero_add] at hread
  rw [hread, List.getD_eq_getElem?_getD]
  cases hi : image[i]? with
  | none => rfl
  | some v =>
    have hv : v ≤ 255 := hb v (List.mem_of_getElem? hi)
    exact Nat.mod_eq_of_lt (Nat.lt_succ_of_le hv)

/-! ### load -/

/-- No entry is named exactly when all of them are bytes. -/
theorem firstNonByte_eq_none {image : List Nat} : firstNonByte image = none ↔ ∀ v ∈ image, v ≤ 255 := by
  simp [firstNonByte]

/-- A named entry is one of the sequence and no byte. -/
theorem firstNonByte_eq_some {image : List Nat} {v : Nat} (h : firstNonByte image = some v) : v ∈ image ∧ 255 < v := by
  rw [firstNonByte] at h
  exact ⟨List.mem_of_find?_eq_some h, by simpa using List.find?_some h⟩

theorem load_not_reset {s : State} (h : s ≠ State.reset) (image : List Nat) : load image s = .refused .loadNotAtReset :=
  if_pos h

/-- At reset an entry that is no byte refuses the load. -/
theorem load_nonByte {image : List Nat} {v : Nat} (h : firstNonByte image = some v) :
    load image State.reset = .refused (.loadEntryNotByte v) := by
  simp [load, h]

/-- At reset a sequence of bytes with no entry or too many fails. -/
theorem load_error {image : List Nat} (hb : ∀ v ∈ image, v ≤ 255) (hn : image.length = 0 ∨ 256 < image.length) :
    load image State.reset = .fault .loadError := by
  simp only [load, firstNonByte_eq_none.mpr hb, ne_eq, not_true_eq_false, if_false, if_pos hn]

/-- At reset a sequence of 1 to 256 bytes is placed from address 0. -/
theorem load_places {image : List Nat} (hb : ∀ v ∈ image, v ≤ 255) (h1 : 1 ≤ image.length)
    (h256 : image.length ≤ 256) :
    load image State.reset = .next (State.reset.setMem (Memory.placeFrom [] 0 image)) := by
  have hn : ¬ (image.length = 0 ∨ 256 < image.length) := by omega
  have hfit : 0 + image.length ≤ 256 := by omega
  simp only [load, firstNonByte_eq_none.mpr hb, ne_eq, not_true_eq_false, if_false, if_neg hn,
    State.loadFrom_eq _ hfit, State.commit_ok]
  rfl

/-- Everything `load` can answer at reset. -/
theorem load_reset_cases (image : List Nat) :
    (∃ v, firstNonByte image = some v ∧ load image State.reset = .refused (.loadEntryNotByte v)) ∨
      load image State.reset = .fault .loadError ∨
      (image.length ≤ 256 ∧ load image State.reset = .next (State.reset.setMem (Memory.placeFrom [] 0 image))) := by
  cases hf : firstNonByte image with
  | some v => exact .inl ⟨v, rfl, load_nonByte hf⟩
  | none =>
    have hb := firstNonByte_eq_none.mp hf
    by_cases hn : image.length = 0 ∨ 256 < image.length
    · exact .inr (.inl (load_error hb hn))
    · have h256 : image.length ≤ 256 := by omega
      exact .inr (.inr ⟨h256, load_places hb (by omega) h256⟩)

/-- Settles O53: the three answers of `load` at reset. -/
theorem loadPlacesTheImage : Obligations.LoadPlacesTheImage := by
  unfold Obligations.LoadPlacesTheImage
  intro image
  refine ⟨?_, load_error, ?_⟩
  · intro hb h1 h256
    exact ⟨_, load_places hb h1 h256, fun i _ => Memory.read_placeFrom_nil hb i, rfl, rfl, rfl, ⟨rfl, rfl⟩,
      fun _ _ => rfl⟩
  · rintro ⟨w, hw, hbig⟩ - -
    cases hf : firstNonByte image with
    | none => exact absurd (firstNonByte_eq_none.mp hf w hw) (Nat.not_le_of_lt hbig)
    | some v => exact ⟨v, (firstNonByte_eq_some hf).1, (firstNonByte_eq_some hf).2, load_nonByte hf⟩

/-- Settles O54: a load that answers has placed an image of at most 256 entries in the canonical empty memory. -/
theorem loadIsForTheResetState : Obligations.LoadIsForTheResetState := by
  unfold Obligations.LoadIsForTheResetState
  refine ⟨?_, fun image s hs => load_not_reset hs image⟩
  intro image t h
  obtain ⟨v, -, e⟩ | e | ⟨h256, e⟩ := load_reset_cases image <;> rw [e] at h
  · cases h
  · cases h
  · cases h
    exact State.Inv.setMem resetMeetsTheInvariant (Memory.wf_placeFrom Memory.wf_nil (by omega))

/-! ### The text of an emitted byte -/

/-- The decimal digits of a byte's value, the highest first and none leading. `renderByte_eq` ties it to the model. -/
def byteDigits (n : Nat) : List Nat :=
  (if 100 ≤ n then [n / 100] else []) ++ (if 10 ≤ n then [n / 10 % 10] else []) ++ [n % 10]

/-- The text is the digits and one line feed. -/
theorem renderByte_eq (v : Byte) : renderByte v = (byteDigits v.toNat).map digitChar ++ ['\n'] := by
  simp only [renderByte, byteDigits, List.map_append, apply_ite (List.map digitChar), List.map_cons, List.map_nil,
    List.append_assoc, List.cons_append, List.nil_append]

theorem byteDigits_ones {n : Nat} (h : n < 10) : byteDigits n = [n] := by
  have h100 : n < 100 := by omega
  simp [byteDigits, Nat.not_le.mpr h, Nat.not_le.mpr h100, Nat.mod_eq_of_lt h]

theorem byteDigits_tens {n : Nat} (h10 : 10 ≤ n) (h : n < 100) : byteDigits n = [n / 10, n % 10] := by
  have htens : n / 10 < 10 := by omega
  simp [byteDigits, h10, Nat.not_le.mpr h, Nat.mod_eq_of_lt htens]

theorem byteDigits_hundreds {n : Nat} (h : 100 ≤ n) : byteDigits n = [n / 100, n / 10 % 10, n % 10] := by
  have h10 : 10 ≤ n := by omega
  simp [byteDigits, h, h10]

/-- They are the decimal numeral of the value: digits, of that value, no leading zero. -/
theorem byteDigits_numeral {n : Nat} (hn : n < 1000) : byteDigits n ≠ [] ∧ (∀ d ∈ byteDigits n, d < 10) ∧
    (byteDigits n).foldl (fun n d => 10 * n + d) 0 = n ∧ ((byteDigits n).head? = some 0 → byteDigits n = [0]) := by
  rcases Nat.lt_or_ge n 10 with h10 | h10
  · rw [byteDigits_ones h10]
    simp [h10]
  · rcases Nat.lt_or_ge n 100 with h100 | h100
    · rw [byteDigits_tens h10 h100]
      refine ⟨List.cons_ne_nil _ _, by simp; omega, by simp; omega, ?_⟩
      intro h0
      have : n / 10 = 0 := Option.some.inj h0
      omega
    · rw [byteDigits_hundreds h100]
      refine ⟨List.cons_ne_nil _ _, by simp; omega, by simp; omega, ?_⟩
      intro h0
      have : n / 100 = 0 := Option.some.inj h0
      omega

/-- Settles O55: `byteDigits`, by how many digits the value has. -/
theorem emittedByteIsShownInDecimal : Obligations.EmittedByteIsShownInDecimal := by
  unfold Obligations.EmittedByteIsShownInDecimal
  intro v
  exact ⟨byteDigits v.toNat, renderByte_eq v, byteDigits_numeral (v.isLt.trans (by decide))⟩

end Sys2Proof.Machine
end
